-- ==== Sys2Proof/Word.lean ====
section
/-! DEFINITION. The widths of 00_scope.md R5: every value of the block is an unsigned bit vector (R8). -/

namespace Sys2Proof

/-- `DATA_W` = 8: every datum the block moves or stores (00_scope.md R5). -/
abbrev Byte := BitVec 8

/-- `ADDR_W` = 20: a physical memory address (00_scope.md R5). -/
abbrev Address := BitVec 20

/-- `PORT_W` = 16: an I/O port number (00_scope.md R5). -/
abbrev Port := BitVec 16

/-- The offset of a byte inside the ROM, `a[14:0]` (20_memory.md R72). -/
abbrev RomOffset := BitVec 15

/-- The offset of a register inside a window, `p[2:0]` (20_memory.md R72). -/
abbrev RegOffset := BitVec 3

/-- A trace word, 32 bits (30_encoding.md R96). -/
abbrev TraceWord := BitVec 32

end Sys2Proof
end

