-- ==== Sys2Proof/Config.lean ====
section
/-! DEFINITION. The configuration: the records of 10_state.md R39 to R41, the constants the spec fixes
(00_scope.md R5), and the free values for what it leaves open (R6). Nothing here changes while the system exists. -/

namespace Sys2Proof

/-- The kind of a memory region (10_state.md R39). -/
inductive RegionKind where
  | ram
  | rom
  | unmapped
deriving DecidableEq, Repr

/-- MemoryRegion, "base address, size, kind" (10_state.md R39).
Natural numbers, so that a region that does not fit the space can be written down and refused (R222). -/
structure MemoryRegion where
  base : Nat
  size : Nat
  kind : RegionKind
deriving DecidableEq, Repr

/-- The peripheral collaborators (00_scope.md R10): each is one collaborator, whether it is reached through its register
window or through its DMA pair (41_dma_router.md R165). -/
inductive Peripheral where
  | scsi
  | fdc
  | uart
  | xbus
deriving DecidableEq, Repr

/-- The peripherals that own a register window (10_state.md R40). The expansion bus has none (90_conflicts.md C4). -/
inductive RegPeripheral where
  | scsi
  | fdc
  | uart
deriving DecidableEq, Repr

/-- The collaborator behind a register window (43_composition_root.md R220). -/
def RegPeripheral.peripheral : RegPeripheral → Peripheral
  | scsi => .scsi
  | fdc => .fdc
  | uart => .uart

/-- IOWindow, "base port, size, target peripheral identifier" (10_state.md R40). -/
structure IoWindow where
  base : Nat
  size : Nat
  target : RegPeripheral
deriving DecidableEq, Repr

/-- The three DMA channels, "index ∈ (0, 1, 2)"; no fourth value exists (10_state.md R41, 30_encoding.md R94). -/
inductive Channel where
  | ch0
  | ch1
  | ch2
deriving DecidableEq, Repr

/-- The channels in order of index; there are `N_DMA` (00_scope.md R5). -/
def Channel.all : List Channel := [.ch0, .ch1, .ch2]

/-- The peripherals that own a DMA read/write pair (10_state.md R41). The UART has none (41_dma_router.md R162). -/
inductive DmaPeripheral where
  | xbus
  | fdc
  | scsi
deriving DecidableEq, Repr

/-- The collaborator behind a DMA acknowledge (43_composition_root.md R220): channels 1 and 2 reach "the same
collaborators `FDC` and `SCSI` that the Address Decoder reaches through their register windows" (41_dma_router.md
R165). -/
def DmaPeripheral.peripheral : DmaPeripheral → Peripheral
  | xbus => .xbus
  | fdc => .fdc
  | scsi => .scsi

/-- DMAChannel, "index, bound peripheral" (10_state.md R41). -/
structure DmaBinding where
  index : Channel
  peripheral : DmaPeripheral
deriving DecidableEq, Repr

/-- What construction is given: the maps, the control port, "16-bit port number" (00_scope.md R6), and the binding
(43_composition_root.md R222). -/
structure Params where
  regions : List MemoryRegion
  windows : List IoWindow
  ctrlPort : Port
  bindings : List DmaBinding
deriving DecidableEq, Repr

/-- Why a configuration is refused at construction (60_exceptions.md R241). -/
inductive ConfigError where
  /-- A memory region is empty or ends above 0xFFFFF. -/
  | memRegionOutOfRange
  /-- Two memory regions overlap or are not in order of base. -/
  | memRegionOverlap
  /-- An I/O window is empty or ends above 0xFFFF. -/
  | ioWindowOutOfRange
  /-- Two I/O windows overlap. -/
  | ioWindowOverlap
  /-- The control port lies inside an I/O window. -/
  | ctrlPortInWindow
  /-- One of the channels 0, 1, 2 has no peripheral, or more than one. -/
  | dmaChannelUnbound
deriving DecidableEq, Repr

/-- A call the block makes on a collaborator, with its arguments (00_scope.md R10). A register call and a DMA call on
one peripheral name the same `Peripheral`. -/
inductive Call where
  | ramRead (off : Address)
  | ramWrite (off : Address) (v : Byte)
  | romRead (off : RomOffset)
  | regRead (p : Peripheral) (off : RegOffset)
  | regWrite (p : Peripheral) (off : RegOffset) (v : Byte)
  | dmaRead (p : Peripheral)
  | dmaWrite (p : Peripheral) (v : Byte)
deriving DecidableEq, Repr

/-- The peripheral a call is made on; none for RAM and ROM. -/
def Call.peripheral? : Call → Option Peripheral
  | ramRead _ => none
  | ramWrite _ _ => none
  | romRead _ => none
  | regRead p _ => some p
  | regWrite p _ _ => some p
  | dmaRead p => some p
  | dmaWrite p _ => some p

namespace Config

/-- Last address of the memory space (10_state.md R42). -/
def memLast : Nat := 0xFFFFF
/-- Last port of the I/O space (10_state.md R42). -/
def portLast : Nat := 0xFFFF

/-- First and last address of general RAM, inclusive, and its size (00_scope.md R5, 90_conflicts.md C1). -/
def ramBase : Nat := 0x00000
def ramLast : Nat := 0x9FFFF
def ramSize : Nat := 0xA0000
/-- First and last address of ROM, inclusive, and its size (00_scope.md R5). -/
def romBase : Nat := 0xF8000
def romLast : Nat := 0xFFFFF
def romSize : Nat := 0x08000
/-- The register windows and their common size (00_scope.md R5). -/
def scsiBase : Nat := 0x0330
def scsiLast : Nat := 0x0337
def fdcBase : Nat := 0x0370
def fdcLast : Nat := 0x0377
def uartBase : Nat := 0x03F8
def uartLast : Nat := 0x03FF
def winSize : Nat := 8
/-- `CTRL_PORT`, matched on all 16 bits (20_memory.md R63; the spec's decision D3). -/
def ctrlPort : Port := 0x0061
/-- The latch at power-on and after a machine reset (00_scope.md R5). -/
def latchPowerOn : Byte := 0xFF
def latchReset : Byte := 0x00
/-- `N_DMA`, the number of DMA channels, indexed 0, 1, 2 (00_scope.md R5). -/
abbrev nDma : Nat := 3
/-- `GATE_BIT`, the bit of the latch that is the counter gate (00_scope.md R5). -/
abbrev gateBit : Nat := 0
/-- `SPKEN_BIT`, the bit of the latch that is the speaker enable (00_scope.md R5). -/
abbrev spkenBit : Nat := 1
/-- The recorded speaker-data bit at power-on (00_scope.md R5). -/
def dataPowerOn : Bool := false

/-- The region records of this hardware (10_state.md R39, 40_address_decode.md R135). -/
def ramRegion : MemoryRegion := ⟨ramBase, ramSize, .ram⟩
def romRegion : MemoryRegion := ⟨romBase, romSize, .rom⟩

/-- The window of each peripheral (10_state.md R40, 40_address_decode.md R135). -/
def window : RegPeripheral → IoWindow
  | .scsi => ⟨scsiBase, winSize, .scsi⟩
  | .fdc => ⟨fdcBase, winSize, .fdc⟩
  | .uart => ⟨uartBase, winSize, .uart⟩

/-- `DMA_BIND`: 0 to XBUS, 1 to FDC, 2 to SCSI, for the life of the system (10_state.md R41). -/
def dmaBind : Channel → DmaPeripheral
  | .ch0 => .xbus
  | .ch1 => .fdc
  | .ch2 => .scsi

/-- The fixed configuration of this hardware (10_state.md R39 to R41; vector K1). -/
def glue : Params where
  regions := [ramRegion, romRegion]
  windows := [window .scsi, window .fdc, window .uart]
  ctrlPort := ctrlPort
  bindings := [⟨.ch0, .xbus⟩, ⟨.ch1, .fdc⟩, ⟨.ch2, .scsi⟩]

/-- FREE VALUE `OPEN_BUS_MEM`: one fixed byte for every unmapped memory read (20_memory.md R65, D4; log entry 8). -/
opaque openBusMem : Byte

/-- FREE VALUE `OPEN_BUS_IO`: one fixed byte for every unmapped I/O read (20_memory.md R65, D4; log entry 8). -/
opaque openBusIo : Byte

/-- FREE VALUE `SPK_OUT_POWERON`: the speaker output at power-on (10_state.md R45, D9; log entry 9). -/
opaque spkOutPowerOn : Bool

/-- FREE VALUE `ROM_IMAGE`, by offset (10_state.md R44, D17; log entry 10). -/
opaque romImage : RomOffset → Byte

/-- FREE VALUE: the power-on content of each RAM byte, by offset; arbitrary, and the same until the byte is
written (10_state.md R44, D16; log entry 7). -/
opaque ramPowerOn : Nat → Byte

/-- FREE VALUE: the byte a peripheral answers to a call, by the number of answers taken before it
(00_scope.md R10, D18; 93_implementation_defined.md U3, U13; log entry 11). -/
opaque peripheralAnswer : Nat → Call → Byte

end Config

end Sys2Proof
end

