-- ==== Sys2Proof/Syntax.lean ====
section
/-! DEFINITION. The instructions, one constructor per row of spec/opcode_table.json (30_encoding.md R105). -/

namespace Sys2Proof

/-- What the block can be given in one step. The four groups of the opcode table: ten operations of the bus
master, the speaker-data line and the reset line; and the decode rows, each the presentation of an address, a port
or a channel alone to the select logic (notes/assumptions/4.md). -/
inductive Instr where
  /-- `MEMR a`: memory read (R130). -/
  | memr (a : Address)
  /-- `MEMW a, v`: memory write (R131). -/
  | memw (a : Address) (v : Byte)
  /-- `IOR p`: I/O read (R132). -/
  | ior (p : Port)
  /-- `IOW p, v`: I/O write (R133). -/
  | iow (p : Port) (v : Byte)
  /-- `DMAR c`: DMA read acknowledge (R160). -/
  | dmar (c : Channel)
  /-- `DMAW c, v`: DMA write acknowledge (R161). -/
  | dmaw (c : Channel) (v : Byte)
  /-- `SPKD b`: speaker-data change (R184). -/
  | spkd (b : Bool)
  /-- `RESET`: machine reset (R185). -/
  | reset
  /-- `CPR`: control-port read, `IOR 0x0061` (R183, R103). -/
  | cpr
  /-- `CPW v`: control-port write, `IOW 0x0061, v` (R182, R103). -/
  | cpw (v : Byte)
  /-- Row 1 of R92: 0x00000..0x7FFFF. -/
  | memRam1 (a : Address)
  /-- Row 2 of R92: 0x80000..0x9FFFF. -/
  | memRam2 (a : Address)
  /-- Row 3 of R92: 0xA0000..0xBFFFF. -/
  | memUnmapped3 (a : Address)
  /-- Row 4 of R92: 0xC0000..0xDFFFF. -/
  | memUnmapped4 (a : Address)
  /-- Row 5 of R92: 0xE0000..0xEFFFF. -/
  | memUnmapped5 (a : Address)
  /-- Row 6 of R92: 0xF0000..0xF7FFF. -/
  | memUnmapped6 (a : Address)
  /-- Row 7 of R92: 0xF8000..0xFFFFF. -/
  | memRom7 (a : Address)
  /-- The CTRL row of R93: port 0x0061. -/
  | ioCtrl
  /-- The SCSI row of R93: 0x0330..0x0337. -/
  | ioScsi (p : Port)
  /-- The FDC row of R93: 0x0370..0x0377. -/
  | ioFdc (p : Port)
  /-- The UART row of R93: 0x03F8..0x03FF. -/
  | ioUart (p : Port)
  /-- Channel 0 of R94. -/
  | dmaCh0
  /-- Channel 1 of R94. -/
  | dmaCh1
  /-- Channel 2 of R94. -/
  | dmaCh2
deriving DecidableEq, Repr

/-- One thing presented to the block, as bits: a row of the opcode table is matched against one of these four
(30_encoding.md R105: rows of different format are matched against different things). -/
inductive Presented where
  /-- A trace word (R96). -/
  | traceWord (w : TraceWord)
  /-- A 20-bit memory address (R92). -/
  | memAddress (a : Address)
  /-- A 16-bit port number (R93). -/
  | ioPort (p : Port)
  /-- A channel index, two bits (R94). -/
  | dmaChannel (c : BitVec 2)
deriving DecidableEq, Repr

namespace Instr

/-- The instruction's other spelling: `IOR 0x0061` is `CPR` and `IOW 0x0061, v` is `CPW v`
(30_encoding.md R98, R103); every other instruction has one spelling. -/
def canonical : Instr → Instr
  | ior p => if p = Config.ctrlPort then cpr else ior p
  | iow p v => if p = Config.ctrlPort then cpw v else iow p v
  | i => i

end Instr

end Sys2Proof
end

