-- ==== Sys2Proof/WellFormed.lean ====
section
/-! DEFINITION. Which terms of `Instr` are instructions: the address or port of a decode row lies in the range the
row covers (30_encoding.md R92, R93). Every operand of an operation is legal (20_memory.md R69, 42_control_port.md R182). -/

namespace Sys2Proof

namespace Instr

/-- `lo ≤ n ≤ hi`: inclusive at both ends, as every range of the spec (00_scope.md R8). -/
def inRange (lo hi n : Nat) : Bool := lo ≤ n && n ≤ hi

/-- The ranges are the "range" columns of the tables of R92 and R93. -/
def wf : Instr → Bool
  | memr _ => true
  | memw _ _ => true
  | ior _ => true
  | iow _ _ => true
  | dmar _ => true
  | dmaw _ _ => true
  | spkd _ => true
  | reset => true
  | cpr => true
  | cpw _ => true
  | memRam1 a => inRange 0x00000 0x7FFFF a.toNat
  | memRam2 a => inRange 0x80000 0x9FFFF a.toNat
  | memUnmapped3 a => inRange 0xA0000 0xBFFFF a.toNat
  | memUnmapped4 a => inRange 0xC0000 0xDFFFF a.toNat
  | memUnmapped5 a => inRange 0xE0000 0xEFFFF a.toNat
  | memUnmapped6 a => inRange 0xF0000 0xF7FFF a.toNat
  | memRom7 a => inRange 0xF8000 0xFFFFF a.toNat
  | ioCtrl => true
  | ioScsi p => inRange 0x0330 0x0337 p.toNat
  | ioFdc p => inRange 0x0370 0x0377 p.toNat
  | ioUart p => inRange 0x03F8 0x03FF p.toNat
  | dmaCh0 => true
  | dmaCh1 => true
  | dmaCh2 => true

end Instr

end Sys2Proof
end

