-- ==== Sys2Proof/Decode.lean ====
section
/-! DEFINITION. From what is presented to an instruction or a refusal by name, total on any bits; then the encoder,
from the same tables (30_encoding.md R92 to R99, R105). -/

namespace Sys2Proof

/-- Why a presentation spells no instruction. All but `portSelectsNothing` are malformed: a trace decoder refuses
them by name (30_encoding.md R99). -/
inductive Reject where
  /-- A trace word of kind 0x8 to 0xF. -/
  | reservedKind (kind : BitVec 4)
  /-- The data field of a `MEMR`, `IOR` or `DMAR` word is not zero. -/
  | dataNotZero
  /-- `addr[19:16]` of an `IOR` or `IOW` word is not zero. -/
  | portHighNotZero
  /-- `addr[19:2]` of a `DMAR` or `DMAW` word is not zero. -/
  | channelHighNotZero
  /-- Channel 3, in a trace word or presented alone: it does not exist. -/
  | channelThree
  /-- The addr field of an `SPKD` word is not zero. -/
  | spkdAddrNotZero
  /-- `data[7:1]` of an `SPKD` word is not zero. -/
  | spkdDataHighNotZero
  /-- The addr or data field of a `RESET` word is not zero. -/
  | resetFieldsNotZero
  /-- A memory address that matches no row of R92 (there is none: the rows cover the space). -/
  | addressMatchesNoRow
  /-- A port that matches no row of R93. It is not malformed: it is Unmapped (R93, R100). -/
  | portSelectsNothing
deriving DecidableEq, Repr

namespace Channel

/-- Channel selection (30_encoding.md R94); an index of `N_DMA` or more, which is the value 3, names no channel. -/
def ofBits (c : BitVec 2) : Option Channel :=
  if c.toNat < Config.nDma then all[c.toNat]? else none

/-- The index of a channel (30_encoding.md R94). -/
def toBits : Channel → BitVec 2
  | ch0 => 0
  | ch1 => 1
  | ch2 => 2

end Channel

namespace TraceWord

/-- `w[31:28]` (30_encoding.md R97). -/
def kind (w : TraceWord) : BitVec 4 := w.extractLsb' 28 4
/-- `w[27:8]`. -/
def addr (w : TraceWord) : Address := w.extractLsb' 8 20
/-- `w[7:0]`. -/
def data (w : TraceWord) : Byte := w.extractLsb' 0 8
/-- `w[23:8]`. -/
def port (w : TraceWord) : Port := w.extractLsb' 8 16
/-- `w[27:24]`, `addr[19:16]`. -/
def portHigh (w : TraceWord) : BitVec 4 := w.extractLsb' 24 4
/-- `w[9:8]`. -/
def channel (w : TraceWord) : BitVec 2 := w.extractLsb' 8 2
/-- `w[27:10]`, `addr[19:2]`. -/
def channelHigh (w : TraceWord) : BitVec 18 := w.extractLsb' 10 18
/-- `w[0]`. -/
def bit (w : TraceWord) : Bool := w.getLsbD 0
/-- `w[7:1]`, `data[7:1]`. -/
def dataHigh (w : TraceWord) : BitVec 7 := w.extractLsb' 1 7

end TraceWord

/-- The DMA operand of a trace word with its must-be-zero field (30_encoding.md R96, R99). -/
def decodeChannel (w : TraceWord) : Except Reject Channel :=
  if TraceWord.channelHigh w ≠ 0 then .error .channelHighNotZero
  else match Channel.ofBits (TraceWord.channel w) with
    | some c => .ok c
    | none => .error .channelThree

/-- A trace word to its operation (30_encoding.md R96 to R99). The rows `CPR` and `CPW` overlap `IOR` and `IOW`
and are named first, as R98 says of a decoder that names them. -/
def decodeTrace (w : TraceWord) : Except Reject Instr :=
  match (TraceWord.kind w).toNat with
  | 0 =>
    if TraceWord.data w ≠ 0 then .error .dataNotZero else .ok (.memr (TraceWord.addr w))
  | 1 => .ok (.memw (TraceWord.addr w) (TraceWord.data w))
  | 2 =>
    if TraceWord.data w ≠ 0 then .error .dataNotZero
    else if TraceWord.portHigh w ≠ 0 then .error .portHighNotZero
    else if TraceWord.port w = Config.ctrlPort then .ok .cpr
    else .ok (.ior (TraceWord.port w))
  | 3 =>
    if TraceWord.portHigh w ≠ 0 then .error .portHighNotZero
    else if TraceWord.port w = Config.ctrlPort then .ok (.cpw (TraceWord.data w))
    else .ok (.iow (TraceWord.port w) (TraceWord.data w))
  | 4 =>
    if TraceWord.data w ≠ 0 then .error .dataNotZero
    else match decodeChannel w with
      | .ok c => .ok (.dmar c)
      | .error r => .error r
  | 5 =>
    match decodeChannel w with
    | .ok c => .ok (.dmaw c (TraceWord.data w))
    | .error r => .error r
  | 6 =>
    if TraceWord.addr w ≠ 0 then .error .spkdAddrNotZero
    else if TraceWord.dataHigh w ≠ 0 then .error .spkdDataHighNotZero
    else .ok (.spkd (TraceWord.bit w))
  | 7 =>
    if TraceWord.addr w ≠ 0 ∨ TraceWord.data w ≠ 0 then .error .resetFieldsNotZero else .ok .reset
  | _ => .error (.reservedKind (TraceWord.kind w))

/-- The rows of R92: match, mask, and the row's instruction. -/
def memRows : List (Address × Address × (Address → Instr)) :=
  [(0x00000#20, 0x80000#20, .memRam1),
   (0x80000#20, 0xE0000#20, .memRam2),
   (0xA0000#20, 0xE0000#20, .memUnmapped3),
   (0xC0000#20, 0xE0000#20, .memUnmapped4),
   (0xE0000#20, 0xF0000#20, .memUnmapped5),
   (0xF0000#20, 0xF8000#20, .memUnmapped6),
   (0xF8000#20, 0xF8000#20, .memRom7)]

/-- The rows of R93: match, mask, and the row's instruction. -/
def portRows : List (Port × Port × (Port → Instr)) :=
  [(0x0061#16, 0xFFFF#16, fun _ => .ioCtrl),
   (0x0330#16, 0xFFF8#16, .ioScsi),
   (0x0370#16, 0xFFF8#16, .ioFdc),
   (0x03F8#16, 0xFFF8#16, .ioUart)]

/-- The first row that matches: `(x & mask) = match` (30_encoding.md R92). -/
def firstRow {w : Nat} (rows : List (BitVec w × BitVec w × (BitVec w → Instr))) (x : BitVec w) : Option Instr :=
  match rows with
  | [] => none
  | (pattern, mask, row) :: rest => if x &&& mask = pattern then some (row x) else firstRow rest x

/-- The row a memory address matches (30_encoding.md R92). -/
def decodeAddress (a : Address) : Except Reject Instr :=
  match firstRow memRows a with
  | some i => .ok i
  | none => .error .addressMatchesNoRow

/-- The row a port matches (30_encoding.md R93). -/
def decodePort (p : Port) : Except Reject Instr :=
  match firstRow portRows p with
  | some i => .ok i
  | none => .error .portSelectsNothing

/-- The row a channel index matches (30_encoding.md R94). -/
def decodeChannelRow (c : BitVec 2) : Except Reject Instr :=
  match Channel.ofBits c with
  | some .ch0 => .ok .dmaCh0
  | some .ch1 => .ok .dmaCh1
  | some .ch2 => .ok .dmaCh2
  | none => .error .channelThree

/-- The decoder: total on any presentation, rejecting by name. -/
def decode : Presented → Except Reject Instr
  | .traceWord w => decodeTrace w
  | .memAddress a => decodeAddress a
  | .ioPort p => decodePort p
  | .dmaChannel c => decodeChannelRow c

/-- The layout of R96: kind in 31:28, addr in 27:8, data in 7:0. -/
def makeTraceWord (kind : BitVec 4) (addr : Address) (data : Byte) : TraceWord := kind ++ addr ++ data

/-- The addr field that carries a port: `addr[15:0] = p`, `addr[19:16] = 0` (R96). -/
def addrOfPort (p : Port) : Address := 0#4 ++ p

/-- The addr field that carries a channel: `addr[1:0] = c`, `addr[19:2] = 0` (R96). -/
def addrOfChannel (c : Channel) : Address := 0#18 ++ c.toBits

/-- The data field that carries a speaker bit: `data[0] = b`, `data[7:1] = 0` (R96). -/
def dataOfBit (b : Bool) : Byte := 0#7 ++ BitVec.ofBool b

/-- What is presented to the block for an instruction, from the tables of R96 and R92 to R94. -/
def encode : Instr → Presented
  | .memr a => .traceWord (makeTraceWord 0x0 a 0)
  | .memw a v => .traceWord (makeTraceWord 0x1 a v)
  | .ior p => .traceWord (makeTraceWord 0x2 (addrOfPort p) 0)
  | .iow p v => .traceWord (makeTraceWord 0x3 (addrOfPort p) v)
  | .dmar c => .traceWord (makeTraceWord 0x4 (addrOfChannel c) 0)
  | .dmaw c v => .traceWord (makeTraceWord 0x5 (addrOfChannel c) v)
  | .spkd b => .traceWord (makeTraceWord 0x6 0 (dataOfBit b))
  | .reset => .traceWord (makeTraceWord 0x7 0 0)
  | .cpr => .traceWord (makeTraceWord 0x2 (addrOfPort Config.ctrlPort) 0)
  | .cpw v => .traceWord (makeTraceWord 0x3 (addrOfPort Config.ctrlPort) v)
  | .memRam1 a => .memAddress a
  | .memRam2 a => .memAddress a
  | .memUnmapped3 a => .memAddress a
  | .memUnmapped4 a => .memAddress a
  | .memUnmapped5 a => .memAddress a
  | .memUnmapped6 a => .memAddress a
  | .memRom7 a => .memAddress a
  | .ioCtrl => .ioPort Config.ctrlPort
  | .ioScsi p => .ioPort p
  | .ioFdc p => .ioPort p
  | .ioUart p => .ioPort p
  | .dmaCh0 => .dmaChannel Channel.ch0.toBits
  | .dmaCh1 => .dmaChannel Channel.ch1.toBits
  | .dmaCh2 => .dmaChannel Channel.ch2.toBits

/-- The lines a number of table bits stands for: a channel (2 bits), a port (16), an address (20) or a trace word
(32), in whole bytes. Bits above the lines' own width do not reach the block (40_address_decode.md R130: "only 20
bits reach the block"; notes/assumptions/3.md). -/
def presentTable (nbits w : Nat) : Presented :=
  if nbits ≤ 8 then .dmaChannel (BitVec.ofNat 2 w)
  else if nbits ≤ 16 then .ioPort (BitVec.ofNat 16 w)
  else if nbits ≤ 24 then .memAddress (BitVec.ofNat 20 w)
  else .traceWord (BitVec.ofNat 32 w)

/-- The decoder on a row of the opcode table, its bits numbered as the table numbers them. -/
def decodeTableWord (nbits w : Nat) : Option Instr :=
  match decode (presentTable nbits w) with
  | .ok i => some i
  | .error _ => none

end Sys2Proof
end

