-- ==== Sys2Proof/Machine/State.lean ====
section
/-! DEFINITION. What the machine holds: the block's three state elements (10_state.md R30), the RAM collaborator
(R44), the inputs still to come, and the record of what was put out. Plain data. -/

namespace Sys2Proof.Machine

/-- The selects of 30_encoding.md R91; at most one is asserted in an operation. -/
inductive Select where
  | ramSel
  | romSel
  | scsiSel
  | fdcSel
  | uartSel
  | ctrlSel
  | dackXbus
  | dackFdc
  | dackScsi
deriving DecidableEq, Repr

/-- What the select logic answers for an address, a port or a channel: the record the decode function returns
(40_address_decode.md R135) with the offset inside it (20_memory.md R72); nothing for Unmapped. -/
inductive Selection where
  | ram (region : MemoryRegion) (off : Address)
  | rom (region : MemoryRegion) (off : RomOffset)
  | window (w : IoWindow) (off : RegOffset)
  | ctrl
  | dma (p : DmaPeripheral)
  | unmapped
deriving DecidableEq, Repr

/-- The observation record of one operation (43_composition_root.md R225); the levels are those after the step. -/
structure Observation where
  result : Option Byte
  select : Option Select
  call : Option Call
  gate : Bool
  enable : Bool
  out : Bool
deriving DecidableEq, Repr

/-- One entry of the output record: an operation's observation (R225), or the answer to a decode row
(notes/assumptions/4.md). -/
inductive LogEntry where
  | operation (o : Observation)
  | lookup (answer : Selection)
deriving DecidableEq, Repr

/-- RAM: the bytes written since power-on, by offset, addresses strictly rising. An offset that is not listed has
no written byte (log entry 7). -/
abbrev Memory := List Host.Cell

/-- The machine. INVENTORY.md, "State", lists each field with its rule and its reset value. -/
structure State where
  /-- `L`, the control-port latch (10_state.md R31). -/
  latch : Byte
  /-- `D`, the recorded speaker-data bit (10_state.md R32). -/
  data : Bool
  /-- `O`, the speaker output level, `SPEAKER.level` (10_state.md R33). -/
  out : Bool
  /-- The RAM collaborator's written bytes (10_state.md R44). -/
  ram : Memory
  /-- The ghost `reset_done`, which no rule reads (70_reset_and_hazards.md R272). -/
  resetDone : Bool
  /-- What is still to be presented, in order of arrival (30_encoding.md R104, 60_exceptions.md R246). -/
  pending : List Presented
  /-- The trace index `i` (30_encoding.md R104). -/
  index : Nat
  /-- Peripheral answers the environment has fixed in advance, in order (00_scope.md R10); the model's own. -/
  answers : List Byte
  /-- How many peripheral answers have been taken; the model's own counter for the free value. -/
  asked : Nat
  /-- What was put out, newest first (43_composition_root.md R225, 70_reset_and_hazards.md R282). -/
  log : List LogEntry
deriving DecidableEq, Repr

/-- The saved state: the triple (`L`, `D`, `O`) (43_composition_root.md R227). -/
structure Saved where
  latch : Byte
  data : Bool
  out : Bool
deriving DecidableEq, Repr

/-- There is no run-time fault: "A model's step function for the block returns a next state for every operation
and every state; it has no fault outcome" (60_exceptions.md R240). No constructor, so nobody raises one. -/
inductive Fault : Type
deriving DecidableEq, Repr

/-- What the model gives no meaning. -/
inductive Refusal where
  /-- An instruction without a meaning; raised by no arm of `exec` of this model. Safe. -/
  | notModelled (mnemonic : String)
  /-- Raised by `step` on a presentation that spells no operation (30_encoding.md R99). Safe: the hardware
  cannot be given it. -/
  | malformed (reason : Reject)
  /-- Raised by `construct` on a configuration that fails the check (43_composition_root.md R222). Safe: no
  system exists. -/
  | configError (reason : ConfigError)
  /-- Raised by `restore` on a triple that no trace can produce (43_composition_root.md R228). Safe. -/
  | restoreUnreachable
deriving DecidableEq, Repr

/-- Power-on, the construction state (10_state.md R45, 43_composition_root.md R221). -/
def State.powerOn : State where
  latch := Config.latchPowerOn
  data := Config.dataPowerOn
  out := Config.spkOutPowerOn
  ram := []
  resetDone := false
  pending := []
  index := 0
  answers := []
  asked := 0
  log := []

/-- The state after the first machine reset, before the first cycle (70_reset_and_hazards.md R274, "for a model's
launch premise"; notes/assumptions/6.md). -/
def State.reset : State where
  latch := Config.latchReset
  data := false
  out := false
  ram := []
  resetDone := true
  pending := []
  index := 0
  answers := []
  asked := 0
  log := []

end Sys2Proof.Machine
end

