-- ==== Sys2Proof/Machine/Flags.lean ====
section
/-! DEFINITION. The block has no flags and no condition codes (10_state.md R38). What it derives from bits stands
here: the fields of the control-port byte and the transition table of its bit 1. -/

namespace Sys2Proof.Machine

/-- The field `GATE`, bit `GATE_BIT` = 0 (30_encoding.md R95). -/
def gateBit (v : Byte) : Bool := v.getLsbD Config.gateBit

/-- The field `SPKEN`, bit `SPKEN_BIT` = 1 (30_encoding.md R95). -/
def enableBit (v : Byte) : Bool := v.getLsbD Config.spkenBit

/-- The field `STORED`, bits 7:2 (30_encoding.md R95). -/
def storedBits (v : Byte) : BitVec 6 := v.extractLsb' 2 6

/-- The counter gate `G = L[0]`, driven to `CPU.gate` at every instant (10_state.md R34). -/
def State.gate (s : State) : Bool := gateBit s.latch

/-- The speaker enable `EN = L[1]` (10_state.md R34). -/
def State.enable (s : State) : Bool := enableBit s.latch

/-- The transition table of a control-port write: old `L[1]`, new `v[1]`, `D`, `O`, to the new `O`
(42_control_port.md R181). -/
def speakerAfterWrite (oldEnable newEnable data out : Bool) : Bool :=
  match oldEnable, newEnable with
  | false, false => out
  | false, true => data
  | true, false => false
  | true, true => out

/-- The speaker output after a data change: forwarded while `L[1] = 1` (42_control_port.md R184). -/
def speakerAfterData (enable new out : Bool) : Bool :=
  if enable then new else out

end Sys2Proof.Machine
end

