-- ==== Sys2Proof/Machine/Operands.lean ====
section
/-! DEFINITION. From an address, a port or a channel to what it selects: the decode functions (20_memory.md R60,
R62, R63), the offsets (R72) and the selects (30_encoding.md R91). All are pure functions of their argument (R61). -/

namespace Sys2Proof.Machine

/-- `decode_memory` (20_memory.md R60). -/
def decodeMemory (a : Address) : RegionKind :=
  if Config.ramBase ≤ a.toNat ∧ a.toNat ≤ Config.ramLast then .ram
  else if Config.romBase ≤ a.toNat ∧ a.toNat ≤ Config.romLast then .rom
  else .unmapped

/-- `decode_io` (20_memory.md R62): `none` is Unmapped. -/
def decodeIo (p : Port) : Option RegPeripheral :=
  if Config.scsiBase ≤ p.toNat ∧ p.toNat ≤ Config.scsiLast then some .scsi
  else if Config.fdcBase ≤ p.toNat ∧ p.toNat ≤ Config.fdcLast then some .fdc
  else if Config.uartBase ≤ p.toNat ∧ p.toNat ≤ Config.uartLast then some .uart
  else none

/-- The five outcomes of an I/O select (20_memory.md R63). -/
inductive IoTarget where
  | ctrl
  | window (p : RegPeripheral)
  | unmapped
deriving DecidableEq, Repr

/-- `io_select`: the control port first, then the windows (20_memory.md R63). -/
def ioSelect (p : Port) : IoTarget :=
  if p = Config.ctrlPort then .ctrl
  else match decodeIo p with
    | some d => .window d
    | none => .unmapped

/-- The offset handed to RAM, `a - 0x00000` (20_memory.md R72). -/
def ramOffset (a : Address) : Address := a - BitVec.ofNat 20 Config.ramBase

/-- The offset handed to ROM, `a - 0xF8000 = a[14:0]` (20_memory.md R72). -/
def romOffset (a : Address) : RomOffset := a.extractLsb' 0 15

/-- The offset handed to a peripheral, `p - base = p[2:0]` (20_memory.md R72). -/
def regOffset (p : Port) : RegOffset := p.extractLsb' 0 3

/-- The select of a register window (30_encoding.md R91, 43_composition_root.md R220). -/
def windowSelect : RegPeripheral → Select
  | .scsi => .scsiSel
  | .fdc => .fdcSel
  | .uart => .uartSel

/-- The select of a bound DMA peripheral (30_encoding.md R94). -/
def dmaSelect : DmaPeripheral → Select
  | .xbus => .dackXbus
  | .fdc => .dackFdc
  | .scsi => .dackScsi

/-- What the select logic answers for a memory address (20_memory.md R60, R72; 40_address_decode.md R135). -/
def selectMemory (a : Address) : Selection :=
  match decodeMemory a with
  | .ram => .ram Config.ramRegion (ramOffset a)
  | .rom => .rom Config.romRegion (romOffset a)
  | .unmapped => .unmapped

/-- What the select logic answers for a port (20_memory.md R63, R72; 40_address_decode.md R135). -/
def selectPort (p : Port) : Selection :=
  match ioSelect p with
  | .ctrl => .ctrl
  | .window d => .window (Config.window d) (regOffset p)
  | .unmapped => .unmapped

/-- What the router answers for a channel (41_dma_router.md R162). -/
def selectChannel (c : Channel) : Selection := .dma (Config.dmaBind c)

/-- The select a selection asserts (30_encoding.md R91); none for Unmapped. -/
def Selection.select : Selection → Option Select
  | .ram _ _ => some .ramSel
  | .rom _ _ => some .romSel
  | .window w _ => some (windowSelect w.target)
  | .ctrl => some .ctrlSel
  | .dma p => some (dmaSelect p)
  | .unmapped => none

/-- The first record of a memory map that covers an address (10_state.md R39). -/
def regionAt (regions : List MemoryRegion) (n : Nat) : Option MemoryRegion :=
  regions.find? fun r => r.base ≤ n && n < r.base + r.size

/-- The first record of an I/O map that covers a port (10_state.md R40). -/
def windowAt (windows : List IoWindow) (n : Nat) : Option IoWindow :=
  windows.find? fun w => w.base ≤ n && n < w.base + w.size

end Sys2Proof.Machine
end

