-- ==== Sys2Proof/Machine/Ops.lean ====
section
/-! DEFINITION. The shared operations: RAM, collaborator calls, the control-port write, the observation record, and
taking the next presented operation. There is no exception to take (60_exceptions.md R240, R247), so no operation
takes one. -/

namespace Sys2Proof.Machine

/-- The byte written last at an offset, if one was written. -/
def Memory.lookup : Memory → Nat → Option Byte
  | [], _ => none
  | (b, v) :: m, a => if a = b then some v else Memory.lookup m a

/-- Write one byte, keeping the addresses strictly rising. -/
def Memory.write : Memory → Nat → Byte → Memory
  | [], a, v => [(a, v)]
  | (b, w) :: m, a, v =>
    if a < b then (a, v) :: (b, w) :: m
    else if a = b then (a, v) :: m
    else (b, w) :: Memory.write m a v

/-- The addresses rise strictly from `lo` and lie inside RAM. -/
def Memory.risingFrom : Nat → Memory → Bool
  | _, [] => true
  | lo, (a, _) :: m => lo ≤ a && a < Config.ramSize && Memory.risingFrom (a + 1) m

/-- The canonical form: addresses strictly rising, each an offset of RAM (log entry 7). -/
def Memory.wf (m : Memory) : Bool := Memory.risingFrom 0 m

/-- `RAM.read(off)`: "the byte last written at `off`, and if none was written since power-on ... that location's
power-on content, which is unspecified" (10_state.md R44). -/
def State.ramByte (s : State) (off : Address) : Byte :=
  match Memory.lookup s.ram off.toNat with
  | some v => v
  | none => Config.ramPowerOn off.toNat

/-- `RAM.write(off, v)` (10_state.md R44). -/
def State.writeRam (s : State) (off : Address) (v : Byte) : State :=
  { s with ram := Memory.write s.ram off.toNat v }

/-- The byte a memory read of an address delivers (40_address_decode.md R130, R137; 20_memory.md R65). -/
def State.memByte (s : State) (a : Address) : Byte :=
  match decodeMemory a with
  | .ram => s.ramByte (ramOffset a)
  | .rom => Config.romImage (romOffset a)
  | .unmapped => Config.openBusMem

/-- Record the observation of an operation: the levels are those of the state after it (43_composition_root.md
R225). -/
def State.observe (s : State) (result : Option Byte) (select : Option Select) (call : Option Call) : State :=
  { s with log := .operation ⟨result, select, call, s.gate, s.enable, s.out⟩ :: s.log }

/-- Record the answer to a decode row; no cycle, no call, nothing else changes (20_memory.md R61). -/
def State.answerLookup (s : State) (answer : Selection) : State :=
  { s with log := .lookup answer :: s.log }

/-- The byte a peripheral answers: the next one the environment has fixed, else the free value (00_scope.md R10). -/
def State.answer (s : State) (c : Call) : Byte :=
  match s.answers with
  | v :: _ => v
  | [] => Config.peripheralAnswer s.asked c

/-- One peripheral answer is taken. -/
def State.takeAnswer (s : State) : State :=
  { s with answers := s.answers.tail, asked := s.asked + 1 }

/-- A peripheral read: one call, its byte handed back unchanged (20_memory.md R71, 40_address_decode.md R137). -/
def State.peripheralRead (s : State) (select : Select) (c : Call) : State :=
  s.takeAnswer.observe (some (s.answer c)) (some select) (some c)

/-- A peripheral write: one call with the byte unchanged (20_memory.md R71, 40_address_decode.md R137). -/
def State.peripheralWrite (s : State) (select : Select) (c : Call) : State :=
  s.observe none (some select) (some c)

/-- The control-port write `CPW`: `O` by the transition table, `L ← v`, in one step (42_control_port.md R181,
R182, R186). The right-hand sides read the values from before the step. -/
def State.writeLatch (s : State) (v : Byte) : State :=
  { s with
    latch := v
    out := speakerAfterWrite s.enable (enableBit v) s.data s.out }

/-- The write of the control port as a bus cycle (42_control_port.md R182). -/
def State.controlWrite (s : State) (v : Byte) : State :=
  (s.writeLatch v).observe none (some .ctrlSel) none

/-- The read of the control port as a bus cycle: the latch, no side effect (42_control_port.md R183). -/
def State.controlRead (s : State) : State :=
  s.observe (some s.latch) (some .ctrlSel) none

/-- The speaker-data change: `D ← b`, and `O ← b` while `L[1] = 1` (42_control_port.md R184). -/
def State.recordData (s : State) (b : Bool) : State :=
  { s with
    data := b
    out := speakerAfterData s.enable b s.out }

/-- The machine reset: `CPW 0x00` (42_control_port.md R185), and the ghost is set (70_reset_and_hazards.md R272). -/
def State.machineReset (s : State) : State :=
  { s.writeLatch Config.latchReset with resetDone := true }

/-- The trace index advances by exactly 1 past the operation taken (30_encoding.md R104). -/
def State.advance (s : State) : State :=
  { s with pending := s.pending.tail, index := s.index + 1 }

/-- Present one more thing, before what is still pending. -/
def State.present (s : State) (x : Presented) : State :=
  { s with pending := x :: s.pending }

/-- Nothing is presented: the block waits, its outputs stand (70_reset_and_hazards.md R282: "no halted state";
log entry 2). -/
def idle (s : State) : Host.Outcome State Fault Refusal := .next s

/-- A presentation that is no row of the table: a port alone that matches no row is Unmapped (30_encoding.md R93;
log entry 5); anything else is malformed and refused by name (R99). -/
def undecoded (r : Reject) (s : State) : Host.Outcome State Fault Refusal :=
  match r with
  | .portSelectsNothing => .next (s.answerLookup .unmapped)
  | r => .refused (.malformed r)

end Sys2Proof.Machine
end

