-- ==== Sys2Proof/Machine/AddressDecoder.lean ====
section
/-! DEFINITION. The Address Decoder operations MEMR, MEMW, IOR, IOW (40_address_decode.md R130 to R133). -/

namespace Sys2Proof.Machine

/-- `MEMR a` (40_address_decode.md R130). -/
def execMemr (a : Address) (s : State) : Host.Outcome State Fault Refusal :=
  match decodeMemory a with
  | .ram => .next (s.observe (some (s.memByte a)) (some .ramSel) (some (.ramRead (ramOffset a))))
  | .rom => .next (s.observe (some (s.memByte a)) (some .romSel) (some (.romRead (romOffset a))))
  | .unmapped => .next (s.observe (some (s.memByte a)) none none)

/-- `MEMW a, v` (40_address_decode.md R131): a write to ROM or Unmapped is discarded (20_memory.md R66, R67). -/
def execMemw (a : Address) (v : Byte) (s : State) : Host.Outcome State Fault Refusal :=
  match decodeMemory a with
  | .ram => .next ((s.writeRam (ramOffset a) v).observe none (some .ramSel) (some (.ramWrite (ramOffset a) v)))
  | .rom => .next (s.observe none (some .romSel) none)
  | .unmapped => .next (s.observe none none none)

/-- `IOR p` (40_address_decode.md R132). -/
def execIor (p : Port) (s : State) : Host.Outcome State Fault Refusal :=
  match ioSelect p with
  | .ctrl => .next s.controlRead
  | .window d => .next (s.peripheralRead (windowSelect d) (.regRead d.peripheral (regOffset p)))
  | .unmapped => .next (s.observe (some Config.openBusIo) none none)

/-- `IOW p, v` (40_address_decode.md R133). -/
def execIow (p : Port) (v : Byte) (s : State) : Host.Outcome State Fault Refusal :=
  match ioSelect p with
  | .ctrl => .next (s.controlWrite v)
  | .window d => .next (s.peripheralWrite (windowSelect d) (.regWrite d.peripheral (regOffset p) v))
  | .unmapped => .next (s.observe none none none)

end Sys2Proof.Machine
end

