-- ==== Sys2Proof/Machine/ControlPort.lean ====
section
/-! DEFINITION. The Control Port State Machine operations CPW, CPR, SPKD, RESET (42_control_port.md R182 to R185). -/

namespace Sys2Proof.Machine

/-- `CPW v` (42_control_port.md R182). -/
def execCpw (v : Byte) (s : State) : Host.Outcome State Fault Refusal := .next (s.controlWrite v)

/-- `CPR` (42_control_port.md R183). -/
def execCpr (s : State) : Host.Outcome State Fault Refusal := .next s.controlRead

/-- `SPKD b` (42_control_port.md R184): not a bus cycle, so no select and no result. -/
def execSpkd (b : Bool) (s : State) : Host.Outcome State Fault Refusal :=
  .next ((s.recordData b).observe none none none)

/-- `RESET` (42_control_port.md R185): not a bus cycle, so no select and no result. -/
def execReset (s : State) : Host.Outcome State Fault Refusal :=
  .next (s.machineReset.observe none none none)

end Sys2Proof.Machine
end

