-- ==== Sys2Proof/Machine/DecodeRows.lean ====
section
/-! DEFINITION. The decode rows of the opcode table (30_encoding.md R105): an address, a port or a channel alone is
given to the select logic, which answers. No cycle happens: no call, no data, and `L`, `D`, `O`, RAM stay
(20_memory.md R61; notes/assumptions/4.md). The answer is the decode function's, not the row's name. -/

namespace Sys2Proof.Machine

/-- The select logic answers for a memory address (20_memory.md R60). -/
def lookupMemory (a : Address) (s : State) : Host.Outcome State Fault Refusal :=
  .next (s.answerLookup (selectMemory a))

/-- The select logic answers for a port (20_memory.md R62, R63). -/
def lookupPort (p : Port) (s : State) : Host.Outcome State Fault Refusal :=
  .next (s.answerLookup (selectPort p))

/-- The router answers for a channel (41_dma_router.md R162). -/
def lookupChannel (c : Channel) (s : State) : Host.Outcome State Fault Refusal :=
  .next (s.answerLookup (selectChannel c))

/-- Row 1 of R92, meaning 20_memory.md R60. -/
def execMemRam1 (a : Address) (s : State) : Host.Outcome State Fault Refusal := lookupMemory a s

/-- Row 2 of R92, meaning 20_memory.md R60. -/
def execMemRam2 (a : Address) (s : State) : Host.Outcome State Fault Refusal := lookupMemory a s

/-- Row 3 of R92, meaning 20_memory.md R60. -/
def execMemUnmapped3 (a : Address) (s : State) : Host.Outcome State Fault Refusal := lookupMemory a s

/-- Row 4 of R92, meaning 20_memory.md R60. -/
def execMemUnmapped4 (a : Address) (s : State) : Host.Outcome State Fault Refusal := lookupMemory a s

/-- Row 5 of R92, meaning 20_memory.md R60. -/
def execMemUnmapped5 (a : Address) (s : State) : Host.Outcome State Fault Refusal := lookupMemory a s

/-- Row 6 of R92, meaning 20_memory.md R60. -/
def execMemUnmapped6 (a : Address) (s : State) : Host.Outcome State Fault Refusal := lookupMemory a s

/-- Row 7 of R92, meaning 20_memory.md R60. -/
def execMemRom7 (a : Address) (s : State) : Host.Outcome State Fault Refusal := lookupMemory a s

/-- The CTRL row of R93, meaning 20_memory.md R63. -/
def execIoCtrl (s : State) : Host.Outcome State Fault Refusal := lookupPort Config.ctrlPort s

/-- The SCSI row of R93, meaning 20_memory.md R62. -/
def execIoScsi (p : Port) (s : State) : Host.Outcome State Fault Refusal := lookupPort p s

/-- The FDC row of R93, meaning 20_memory.md R62. -/
def execIoFdc (p : Port) (s : State) : Host.Outcome State Fault Refusal := lookupPort p s

/-- The UART row of R93, meaning 20_memory.md R62. -/
def execIoUart (p : Port) (s : State) : Host.Outcome State Fault Refusal := lookupPort p s

/-- Channel 0 of R94, meaning 41_dma_router.md R162. -/
def execDmaCh0 (s : State) : Host.Outcome State Fault Refusal := lookupChannel .ch0 s

/-- Channel 1 of R94, meaning 41_dma_router.md R162. -/
def execDmaCh1 (s : State) : Host.Outcome State Fault Refusal := lookupChannel .ch1 s

/-- Channel 2 of R94, meaning 41_dma_router.md R162. -/
def execDmaCh2 (s : State) : Host.Outcome State Fault Refusal := lookupChannel .ch2 s

end Sys2Proof.Machine
end

