-- ==== Sys2Proof/Machine/DmaRouter.lean ====
section
/-! DEFINITION. The DMA Channel Router operations DMAR, DMAW (41_dma_router.md R160, R161): forwarded always, armed
or not (R163). The call is on the collaborator that the Address Decoder reaches too (R165). -/

namespace Sys2Proof.Machine

/-- `DMAR c` (41_dma_router.md R160). -/
def execDmar (c : Channel) (s : State) : Host.Outcome State Fault Refusal :=
  .next (s.peripheralRead (dmaSelect (Config.dmaBind c)) (.dmaRead (Config.dmaBind c).peripheral))

/-- `DMAW c, v` (41_dma_router.md R161). -/
def execDmaw (c : Channel) (v : Byte) (s : State) : Host.Outcome State Fault Refusal :=
  .next (s.peripheralWrite (dmaSelect (Config.dmaBind c)) (.dmaWrite (Config.dmaBind c).peripheral v))

end Sys2Proof.Machine
end

