-- ==== Sys2Proof/Machine/Dispatch.lean ====
section
/-! DEFINITION. One arm per constructor of `Instr`, each one call of its meaning (43_composition_root.md R224). -/

namespace Sys2Proof.Machine

def exec (i : Instr) (s : State) : Host.Outcome State Fault Refusal :=
  match i with
  | .memr a => Sys2Proof.Machine.execMemr a s
  | .memw a v => Sys2Proof.Machine.execMemw a v s
  | .ior p => Sys2Proof.Machine.execIor p s
  | .iow p v => Sys2Proof.Machine.execIow p v s
  | .dmar c => Sys2Proof.Machine.execDmar c s
  | .dmaw c v => Sys2Proof.Machine.execDmaw c v s
  | .spkd b => Sys2Proof.Machine.execSpkd b s
  | .reset => Sys2Proof.Machine.execReset s
  | .cpr => Sys2Proof.Machine.execCpr s
  | .cpw v => Sys2Proof.Machine.execCpw v s
  | .memRam1 a => Sys2Proof.Machine.execMemRam1 a s
  | .memRam2 a => Sys2Proof.Machine.execMemRam2 a s
  | .memUnmapped3 a => Sys2Proof.Machine.execMemUnmapped3 a s
  | .memUnmapped4 a => Sys2Proof.Machine.execMemUnmapped4 a s
  | .memUnmapped5 a => Sys2Proof.Machine.execMemUnmapped5 a s
  | .memUnmapped6 a => Sys2Proof.Machine.execMemUnmapped6 a s
  | .memRom7 a => Sys2Proof.Machine.execMemRom7 a s
  | .ioCtrl => Sys2Proof.Machine.execIoCtrl s
  | .ioScsi p => Sys2Proof.Machine.execIoScsi p s
  | .ioFdc p => Sys2Proof.Machine.execIoFdc p s
  | .ioUart p => Sys2Proof.Machine.execIoUart p s
  | .dmaCh0 => Sys2Proof.Machine.execDmaCh0 s
  | .dmaCh1 => Sys2Proof.Machine.execDmaCh1 s
  | .dmaCh2 => Sys2Proof.Machine.execDmaCh2 s

end Sys2Proof.Machine
end

