-- ==== Sys2Proof/Machine/Step.lean ====
section
/-! DEFINITION. One step: take the next thing presented, decode it, run it (43_composition_root.md R224,
30_encoding.md R104). -/

namespace Sys2Proof.Machine

/-- One atomic step of no duration (00_scope.md R7, 70_reset_and_hazards.md R281). -/
def step (s : State) : Host.Outcome State Fault Refusal :=
  match s.pending with
  | [] => idle s
  | x :: _ =>
    match decode x with
    | .ok i => exec i s.advance
    | .error r => undecoded r s.advance

/-- The state with the instruction of a table row presented next (notes/assumptions/3.md, 6.md). -/
def State.withFetchWord (s : State) (nbits w : Nat) : State := s.present (presentTable nbits w)

end Sys2Proof.Machine
end

