-- ==== Sys2Proof/Machine/CompositionRoot.lean ====
section
/-! DEFINITION. The Composition Root's own actions, which are no operations on the bus: construction with its check
(43_composition_root.md R221, R222), save (R227) and restore (R228). The machine reset is the operation RESET (R226). -/

namespace Sys2Proof.Machine

/-- A range of `size` places from `base` is not empty and ends at or below `last` (43_composition_root.md R222). -/
def fits (base size last : Nat) : Bool := 1 ≤ size && base + size - 1 ≤ last

/-- Consecutive regions are in order and disjoint: `r.base + r.size ≤ s.base` (43_composition_root.md R222). -/
def regionsOrdered : List MemoryRegion → Bool
  | [] => true
  | [_] => true
  | r :: s :: rest => r.base + r.size ≤ s.base && regionsOrdered (s :: rest)

/-- Two windows have no port in common. -/
def windowsApart (v w : IoWindow) : Bool := v.base + v.size ≤ w.base || w.base + w.size ≤ v.base

/-- The windows are pairwise disjoint (43_composition_root.md R222). -/
def windowsDisjoint : List IoWindow → Bool
  | [] => true
  | w :: rest => rest.all (windowsApart w) && windowsDisjoint rest

/-- A port lies in a window. -/
def inWindow (n : Nat) (w : IoWindow) : Bool := w.base ≤ n && n < w.base + w.size

/-- A channel is bound to exactly one peripheral (43_composition_root.md R222). DESIGN CHOICE: records are counted, so a
channel listed twice with the same peripheral is refused too (notes/assumptions/15.md). -/
def boundOnce (bindings : List DmaBinding) (c : Channel) : Bool :=
  (bindings.filter fun b => b.index == c).length == 1

/-- The configuration check, with the reason of the first clause that fails (43_composition_root.md R222,
60_exceptions.md R241; the order of the reasons is notes/assumptions/15.md). -/
def checkParams (p : Params) : Option ConfigError :=
  if !p.regions.all (fun r => fits r.base r.size Config.memLast) then some .memRegionOutOfRange
  else if !regionsOrdered p.regions then some .memRegionOverlap
  else if !p.windows.all (fun w => fits w.base w.size Config.portLast) then some .ioWindowOutOfRange
  else if !windowsDisjoint p.windows then some .ioWindowOverlap
  else if p.windows.any (inWindow p.ctrlPort.toNat) then some .ctrlPortInWindow
  else if !Channel.all.all (boundOnce p.bindings) then some .dmaChannelUnbound
  else none

/-- Construction: check, then the power-on state; no `RESET`, no call (43_composition_root.md R221). -/
def construct (p : Params) : Host.Outcome State Fault Refusal :=
  match checkParams p with
  | none => .next State.powerOn
  | some e => .refused (.configError e)

/-- Save: changes no state (43_composition_root.md R227). -/
def State.save (s : State) : Saved := ⟨s.latch, s.data, s.out⟩

/-- The triple has `O = L[1] & D` (10_state.md R47). -/
def Saved.closed (t : Saved) : Bool := t.out == (enableBit t.latch && t.data)

/-- Some sequence of operations from power-on ends in this triple: those with `O = L[1] & D`, and, if the speaker
output was 1 at power-on, those with `L[1] = 1`, `D = 0`, `O = 1` (10_state.md R47, 95_test_vectors.md 2.9;
notes/assumptions/14.md). -/
def Saved.reachable (t : Saved) : Bool :=
  t.closed || (Config.spkOutPowerOn && enableBit t.latch && !t.data && t.out)

/-- Restore: sets the triple, runs no transition logic, makes no call; a triple that no trace can produce is refused
(43_composition_root.md R228, 93_implementation_defined.md U15). -/
def restore (t : Saved) (s : State) : Host.Outcome State Fault Refusal :=
  if t.reachable then
    .next { s with latch := t.latch, data := t.data, out := t.out, resetDone := s.resetDone && t.closed }
  else .refused .restoreUnreachable

end Sys2Proof.Machine
end

