-- ==== Sys2Proof/Safety.lean ====
section
/-! DEFINITION. What claims are stated in: the invariants of 10_state.md R47, the reachable states (00_scope.md R14),
traces run as lists of operations, and the boot premise (70_reset_and_hazards.md R272). -/

namespace Sys2Proof.Machine

/-- The invariant (J): the speaker is silent while it is disabled (10_state.md R47, 42_control_port.md R190). -/
def State.Silent (s : State) : Prop := s.enable = false → s.out = false

/-- The closed form `O = L[1] & D` (10_state.md R47, 42_control_port.md R187). -/
def State.Closed (s : State) : Prop := s.out = (s.enable && s.data)

/-- What every step keeps: (J); the closed form once a `RESET` has happened; RAM in canonical form. -/
structure State.Inv (s : State) : Prop where
  silent : s.Silent
  closed : s.resetDone = true → s.Closed
  ramWf : Memory.wf s.ram = true

/-- Power-on with a trace to apply and answers for the peripherals to give. -/
def State.powerOnWith (trace : List Presented) (answers : List Byte) : State :=
  { State.powerOn with pending := trace, answers := answers }

/-- A state obtained from the power-on state by a finite sequence of operations (00_scope.md R14). -/
inductive Reachable : State → Prop where
  | powerOn (trace : List Presented) (answers : List Byte) : Reachable (State.powerOnWith trace answers)
  | step (s t : State) : Reachable s → Sys2Proof.Machine.step s = .next t → Reachable t

/-- A finite sequence of operations applied in order; it stops at the first refusal. -/
def runOps : List Instr → State → Host.Outcome State Fault Refusal
  | [], s => .next s
  | i :: rest, s =>
    match exec i s with
    | .next t => runOps rest t
    | .fault f => .fault f
    | .refused r => .refused r

/-- The boot premise on traces: "the first operation of a trace from the power-on state is `RESET`"
(70_reset_and_hazards.md R272). -/
def bootPremise (trace : List Presented) : Prop := ∃ rest, trace = encode .reset :: rest

/-- The block's triple (`L`, `D`, `O`) is the same in both states (10_state.md R30). -/
def SameBlock (s t : State) : Prop := t.latch = s.latch ∧ t.data = s.data ∧ t.out = s.out

/-- Every byte of memory reads the same in both states. -/
def SameMemory (s t : State) : Prop := ∀ a : Address, t.memByte a = s.memByte a

/-- The inputs and counters that only the step or a peripheral read moves are the same in both states. -/
def SameInputs (s t : State) : Prop :=
  t.pending = s.pending ∧ t.index = s.index ∧ t.answers = s.answers ∧ t.asked = s.asked

/-- The output record of an operation, with the levels `G`, `EN`, `O` of the state after it (43_composition_root.md
R225). -/
def recordOf (t : State) (result : Option Byte) (select : Option Select) (call : Option Call) : LogEntry :=
  .operation ⟨result, select, call, t.latch.getLsbD Config.gateBit, t.latch.getLsbD Config.spkenBit, t.out⟩

/-- The select of an output record; none for the answer to a decode row. -/
def LogEntry.select? : LogEntry → Option Select
  | .operation o => o.select
  | .lookup _ => none

/-- The instruction is a write of the control port: `CPW`, or `IOW` at port 0x0061 (30_encoding.md R103). -/
def writesControlPort : Instr → Bool
  | .cpw _ => true
  | .iow p _ => p = Config.ctrlPort
  | _ => false

/-- The newest entry of the output record is that of an operation with a call on this peripheral. -/
def State.lastCallIsOn (t : State) (p : Peripheral) : Prop :=
  ∃ o c, t.log.head? = some (.operation o) ∧ o.call = some c ∧ c.peripheral? = some p

/-- The instruction is one of the ten operations and no decode row (30_encoding.md R105). -/
def isOperation : Instr → Bool
  | .memr _ => true
  | .memw _ _ => true
  | .ior _ => true
  | .iow _ _ => true
  | .dmar _ => true
  | .dmaw _ _ => true
  | .spkd _ => true
  | .reset => true
  | .cpr => true
  | .cpw _ => true
  | .memRam1 _ => false
  | .memRam2 _ => false
  | .memUnmapped3 _ => false
  | .memUnmapped4 _ => false
  | .memUnmapped5 _ => false
  | .memUnmapped6 _ => false
  | .memRom7 _ => false
  | .ioCtrl => false
  | .ioScsi _ => false
  | .ioFdc _ => false
  | .ioUart _ => false
  | .dmaCh0 => false
  | .dmaCh1 => false
  | .dmaCh2 => false

/-- The observation records so far, in order (70_reset_and_hazards.md R282). -/
def State.observations (s : State) : List Observation :=
  s.log.reverse.filterMap fun
    | .operation o => some o
    | .lookup _ => none

/-- The three sources of operations (60_exceptions.md R246). -/
inductive Source where
  | busMaster
  | speakerLine
  | resetLine
deriving DecidableEq, Repr

/-- Who presents an instruction (42_control_port.md R191, 43_composition_root.md R220). -/
def sourceOf : Instr → Source
  | .spkd _ => .speakerLine
  | .reset => .resetLine
  | .memr _ => .busMaster
  | .memw _ _ => .busMaster
  | .ior _ => .busMaster
  | .iow _ _ => .busMaster
  | .dmar _ => .busMaster
  | .dmaw _ _ => .busMaster
  | .cpr => .busMaster
  | .cpw _ => .busMaster
  | .memRam1 _ => .busMaster
  | .memRam2 _ => .busMaster
  | .memUnmapped3 _ => .busMaster
  | .memUnmapped4 _ => .busMaster
  | .memUnmapped5 _ => .busMaster
  | .memUnmapped6 _ => .busMaster
  | .memRom7 _ => .busMaster
  | .ioCtrl => .busMaster
  | .ioScsi _ => .busMaster
  | .ioFdc _ => .busMaster
  | .ioUart _ => .busMaster
  | .dmaCh0 => .busMaster
  | .dmaCh1 => .busMaster
  | .dmaCh2 => .busMaster

end Sys2Proof.Machine
end

