-- ==== Sys2Proof/Certificates/Slice0/Obligations.lean ====
section
/-! DEFINITION. The statements for the provers. Each docstring says which rule of the spec it formalises. What a read
returns, which select is asserted and which call is made are read off the output record of R225, whose form is the
spec's decision D2. -/

open Sys2Proof Sys2Proof.Machine

/-! ## Encoding -/

/-- Every well-formed instruction is read back from its encoding (R96, R92 to R94); `IOR` and `IOW` at the control
port come back under the names `CPR` and `CPW` (R98, R103), which have the same meaning. Log entry 16. -/
def Obligations.DecodeOfEncodeIsTheInstruction : Prop :=
  ∀ i : Instr, i.wf = true →
    decode (encode i) = .ok i.canonical ∧
    (i ≠ .ior 0x0061 → (∀ v, i ≠ .iow 0x0061 v) → i.canonical = i) ∧
    ∀ s : State, exec i.canonical s = exec i s

/-- The other direction: whatever the decoder accepts is well formed and encodes to exactly what was presented, so no
presentation has two spellings and no bit is dropped (R96 to R99, R92 to R94). -/
def Obligations.EncodeOfDecodeIsThePresentation : Prop :=
  ∀ (x : Presented) (i : Instr), decode x = .ok i → encode i = x ∧ i.wf = true

/-- A trace word is accepted exactly when a row of R98 matches it, with the extra condition of the DMA rows; the rows
`CPR` and `CPW` lie inside `IOR` and `IOW`. -/
def Obligations.TraceWordAcceptedIffARowMatches : Prop :=
  ∀ w : TraceWord,
    (∃ i, decode (.traceWord w) = .ok i) ↔
      (w &&& 0xF00000FF = 0x00000000 ∨
       w &&& 0xF0000000 = 0x10000000 ∨
       w &&& 0xFF0000FF = 0x20000000 ∨
       w &&& 0xFF000000 = 0x30000000 ∨
       (w &&& 0xFFFFFCFF = 0x40000000 ∧ w &&& 0x00000300 ≠ 0x00000300) ∨
       (w &&& 0xFFFFFC00 = 0x50000000 ∧ w &&& 0x00000300 ≠ 0x00000300) ∨
       w &&& 0xFFFFFFFE = 0x60000000 ∨
       w &&& 0xFFFFFFFF = 0x70000000)

/-- Some trace words of the spec's tables (95_test_vectors.md 2.7, 2.1, 2.2) and one value of each other format,
written out, decode to the instruction they stand for. That the words of `IOR 0x0061` and `IOW 0x0061, v` come out under
the names `CPR` and `CPW` is the model's choice, which R98 allows (log entry 16). -/
def Obligations.SpecWordsDecodeAsListed : Prop :=
  decode (.traceWord 0x112345AB) = .ok (.memw 0x12345 0xAB) ∧
  decode (.traceWord 0x09FFFF00) = .ok (.memr 0x9FFFF) ∧
  decode (.traceWord 0x20106100) = .ok (.ior 0x1061) ∧
  decode (.traceWord 0x3003721C) = .ok (.iow 0x0372 0x1C) ∧
  decode (.traceWord 0x40000200) = .ok (.dmar .ch2) ∧
  decode (.traceWord 0x5000025A) = .ok (.dmaw .ch2 0x5A) ∧
  decode (.traceWord 0x60000001) = .ok (.spkd true) ∧
  decode (.traceWord 0x70000000) = .ok .reset ∧
  decode (.traceWord 0x20006100) = .ok .cpr ∧
  decode (.traceWord 0x300061A6) = .ok (.cpw 0xA6) ∧
  decode (.memAddress 0x9FFFF) = .ok (.memRam2 0x9FFFF) ∧
  decode (.ioPort 0x03FD) = .ok (.ioUart 0x03FD) ∧
  decode (.dmaChannel 1) = .ok .dmaCh1

/-- Every trace word that spells no operation (R99: a reserved kind, a non-zero must-be-zero field, channel 3) is
refused by name, kind by kind. That it is refused is R99's; the names are the model's, and where a word breaks several
conditions, so is the order in which they are named, which stands here as premises that the conditions named earlier do
not apply: data field, upper address bits, channel, and for `SPKD` the addr field before the data field (log entry
16). -/
def Obligations.MalformedTraceWordsAreRefusedByName : Prop :=
  (∀ w : TraceWord, 8 ≤ (w.extractLsb' 28 4).toNat →
    decode (.traceWord w) = .error (.reservedKind (w.extractLsb' 28 4))) ∧
  (∀ w : TraceWord, w.extractLsb' 28 4 = 0x0 → w.extractLsb' 0 8 ≠ 0 →
    decode (.traceWord w) = .error .dataNotZero) ∧
  (∀ w : TraceWord, w.extractLsb' 28 4 = 0x2 → w.extractLsb' 0 8 ≠ 0 →
    decode (.traceWord w) = .error .dataNotZero) ∧
  (∀ w : TraceWord, w.extractLsb' 28 4 = 0x2 → w.extractLsb' 0 8 = 0 → w.extractLsb' 24 4 ≠ 0 →
    decode (.traceWord w) = .error .portHighNotZero) ∧
  (∀ w : TraceWord, w.extractLsb' 28 4 = 0x3 → w.extractLsb' 24 4 ≠ 0 →
    decode (.traceWord w) = .error .portHighNotZero) ∧
  (∀ w : TraceWord, w.extractLsb' 28 4 = 0x4 → w.extractLsb' 0 8 ≠ 0 →
    decode (.traceWord w) = .error .dataNotZero) ∧
  (∀ w : TraceWord, w.extractLsb' 28 4 = 0x4 → w.extractLsb' 0 8 = 0 → w.extractLsb' 10 18 ≠ 0 →
    decode (.traceWord w) = .error .channelHighNotZero) ∧
  (∀ w : TraceWord, w.extractLsb' 28 4 = 0x4 → w.extractLsb' 0 8 = 0 → w.extractLsb' 10 18 = 0 →
    w.extractLsb' 8 2 = 3 → decode (.traceWord w) = .error .channelThree) ∧
  (∀ w : TraceWord, w.extractLsb' 28 4 = 0x5 → w.extractLsb' 10 18 ≠ 0 →
    decode (.traceWord w) = .error .channelHighNotZero) ∧
  (∀ w : TraceWord, w.extractLsb' 28 4 = 0x5 → w.extractLsb' 10 18 = 0 → w.extractLsb' 8 2 = 3 →
    decode (.traceWord w) = .error .channelThree) ∧
  (∀ w : TraceWord, w.extractLsb' 28 4 = 0x6 → w.extractLsb' 8 20 ≠ 0 →
    decode (.traceWord w) = .error .spkdAddrNotZero) ∧
  (∀ w : TraceWord, w.extractLsb' 28 4 = 0x6 → w.extractLsb' 8 20 = 0 → w.extractLsb' 1 7 ≠ 0 →
    decode (.traceWord w) = .error .spkdDataHighNotZero) ∧
  (∀ w : TraceWord, w.extractLsb' 28 4 = 0x7 → w.extractLsb' 0 28 ≠ 0 →
    decode (.traceWord w) = .error .resetFieldsNotZero)

/-! ## The maps -/

/-- `decode_memory` (R60): the three ranges, inclusive at both ends, 0x9FFFF among RAM. -/
def Obligations.DecodeMemoryFollowsTheMap : Prop :=
  ∀ a : Address,
    (a.toNat ≤ 0x9FFFF → decodeMemory a = .ram) ∧
    (0xA0000 ≤ a.toNat → a.toNat ≤ 0xF7FFF → decodeMemory a = .unmapped) ∧
    (0xF8000 ≤ a.toNat → decodeMemory a = .rom)

/-- R92: the match/mask rows cover the address space, exactly one matching each address; the row that matches names
the region of `decode_memory`; and the select equations over the upper bits hold. -/
def Obligations.MemoryRowsPartitionTheSpace : Prop :=
  ∀ a : Address,
    (memRows.filter fun r => a &&& r.2.1 = r.1).length = 1 ∧
    (∃ i, decode (.memAddress a) = .ok i ∧ encode i = .memAddress a ∧ i.wf = true) ∧
    (decodeMemory a = .ram ↔ a.getLsbD 19 = false ∨ a.extractLsb' 17 3 = 0b100) ∧
    (decodeMemory a = .rom ↔ a.extractLsb' 15 5 = 0b11111)

/-- `decode_io` (R62): the three windows, everything else Unmapped, the control port among it. -/
def Obligations.DecodeIoFollowsTheMap : Prop :=
  (∀ p : Port,
    (0x0330 ≤ p.toNat ∧ p.toNat ≤ 0x0337 ↔ decodeIo p = some .scsi) ∧
    (0x0370 ≤ p.toNat ∧ p.toNat ≤ 0x0377 ↔ decodeIo p = some .fdc) ∧
    (0x03F8 ≤ p.toNat ∧ p.toNat ≤ 0x03FF ↔ decodeIo p = some .uart)) ∧
  decodeIo 0x0061 = none

/-- R63, R64, R93: the control port is selected by port 0x0061 and no other (no alias), a port row matches exactly
when `io_select` selects its target, and a port that matches no row is Unmapped. The address is the spec's decision
D3; that a bare port of no row is rejected by the name `portSelectsNothing` is log entry 5. -/
def Obligations.PortRowsAgreeWithIoSelect : Prop :=
  ∀ p : Port,
    (ioSelect p = .ctrl ↔ p = 0x0061) ∧
    (decode (.ioPort p) = .ok .ioCtrl ↔ ioSelect p = .ctrl) ∧
    (decode (.ioPort p) = .ok (.ioScsi p) ↔ ioSelect p = .window .scsi) ∧
    (decode (.ioPort p) = .ok (.ioFdc p) ↔ ioSelect p = .window .fdc) ∧
    (decode (.ioPort p) = .ok (.ioUart p) ↔ ioSelect p = .window .uart) ∧
    (decode (.ioPort p) = .error .portSelectsNothing ↔ ioSelect p = .unmapped)

/-- R81 and R64: how many addresses each region covers, and how many ports each target. -/
def Obligations.RegionAndPortCounts : Prop :=
  ((Finset.range 0x100000).filter fun n => decodeMemory (BitVec.ofNat 20 n) = .ram).card = 655360 ∧
  ((Finset.range 0x100000).filter fun n => decodeMemory (BitVec.ofNat 20 n) = .rom).card = 32768 ∧
  ((Finset.range 0x100000).filter fun n => decodeMemory (BitVec.ofNat 20 n) = .unmapped).card = 360448 ∧
  ((Finset.range 0x10000).filter fun n => (decodeIo (BitVec.ofNat 16 n)).isSome).card = 24 ∧
  ((Finset.range 0x10000).filter fun n => ioSelect (BitVec.ofNat 16 n) = .ctrl).card = 1 ∧
  ((Finset.range 0x10000).filter fun n => ioSelect (BitVec.ofNat 16 n) = .unmapped).card = 65511

/-- R39, R40, R135: the decode functions are the look-up in the fixed lists of records; an address or port with no
covering record is Unmapped. -/
def Obligations.DecodeFunctionsAreTheRecordLists : Prop :=
  (∀ a : Address, regionAt Config.glue.regions a.toNat =
    match decodeMemory a with
    | .ram => some ⟨0x00000, 0xA0000, .ram⟩
    | .rom => some ⟨0xF8000, 0x08000, .rom⟩
    | .unmapped => none) ∧
  (∀ p : Port, windowAt Config.glue.windows p.toNat =
    match decodeIo p with
    | some .scsi => some ⟨0x0330, 8, .scsi⟩
    | some .fdc => some ⟨0x0370, 8, .fdc⟩
    | some .uart => some ⟨0x03F8, 8, .uart⟩
    | none => none)

/-- R72: the offset is the address less the base of its region or window, and lies inside it. That the offset is what
is handed over is the spec's decision D8. -/
def Obligations.OffsetsAreDistancesFromTheBase : Prop :=
  (∀ a : Address, decodeMemory a = .ram → (ramOffset a).toNat = a.toNat - 0x00000 ∧ (ramOffset a).toNat ≤ 0x9FFFF) ∧
  (∀ a : Address, decodeMemory a = .rom → (romOffset a).toNat = a.toNat - 0xF8000) ∧
  (∀ p : Port, ioSelect p = .window .scsi → (regOffset p).toNat = p.toNat - 0x0330) ∧
  (∀ p : Port, ioSelect p = .window .fdc → (regOffset p).toNat = p.toNat - 0x0370) ∧
  (∀ p : Port, ioSelect p = .window .uart → (regOffset p).toNat = p.toNat - 0x03F8)

/-! ## Memory and I/O cycles -/

/-- `MEMR` (R130): it completes, returns the byte of the region the address lies in, asserts that region's select,
makes that region's call, and changes nothing but the output record. An unmapped read returns the free constant of
R65, a ROM read that of `ROM_IMAGE` (log entries 8 and 10). -/
def Obligations.MemrReturnsTheSelectedByte : Prop :=
  ∀ (s : State) (a : Address),
    (a.toNat ≤ 0x9FFFF → exec (.memr a) s = .next { s with
      log := recordOf s (some (s.ramByte a)) (some .ramSel) (some (.ramRead a)) :: s.log }) ∧
    (0xF8000 ≤ a.toNat → exec (.memr a) s = .next { s with
      log := recordOf s (some (Config.romImage (a.extractLsb' 0 15))) (some .romSel)
        (some (.romRead (a.extractLsb' 0 15))) :: s.log }) ∧
    (0xA0000 ≤ a.toNat → a.toNat ≤ 0xF7FFF → exec (.memr a) s = .next { s with
      log := recordOf s (some Config.openBusMem) none none :: s.log })

/-- `MEMW` to RAM (R131): it completes; the byte at the address written is the one written and every other byte of the
address space reads as before; one call, `RAM.write`, is recorded under `RAM_SEL`; the block, the ghost and the inputs
are unchanged. -/
def Obligations.MemwToRamStoresOneByte : Prop :=
  ∀ (s : State) (a : Address) (v : Byte), a.toNat ≤ 0x9FFFF →
    ∃ t, exec (.memw a v) s = .next t ∧
      t.memByte a = v ∧
      (∀ b : Address, b ≠ a → t.memByte b = s.memByte b) ∧
      SameBlock s t ∧ SameInputs s t ∧ t.resetDone = s.resetDone ∧
      t.log = recordOf s none (some .ramSel) (some (.ramWrite a v)) :: s.log

/-- A write to an Unmapped memory address or an Unmapped I/O port (R66): it completes, and changes nothing but the
output record, which shows no select and no call. -/
def Obligations.UnmappedWritesAreDiscarded : Prop :=
  ∀ (s : State) (v : Byte),
    (∀ a : Address, 0xA0000 ≤ a.toNat → a.toNat ≤ 0xF7FFF →
      exec (.memw a v) s = .next { s with log := recordOf s none none none :: s.log }) ∧
    (∀ p : Port, p ≠ 0x0061 → ¬ (0x0330 ≤ p.toNat ∧ p.toNat ≤ 0x0337) → ¬ (0x0370 ≤ p.toNat ∧ p.toNat ≤ 0x0377) →
      ¬ (0x03F8 ≤ p.toNat ∧ p.toNat ≤ 0x03FF) →
      exec (.iow p v) s = .next { s with log := recordOf s none none none :: s.log })

/-- A write to a ROM address (R67, the spec's decision D5): `ROM_SEL` is asserted, nothing else happens. -/
def Obligations.RomWritesAreDiscarded : Prop :=
  ∀ (s : State) (a : Address) (v : Byte), 0xF8000 ≤ a.toNat →
    exec (.memw a v) s = .next { s with log := recordOf s none (some .romSel) none :: s.log }

/-- `IOR` of a port that selects nothing (R132, R65, R64): the free constant `OPEN_BUS_IO`, no select, no call. -/
def Obligations.UnmappedPortReadsOpenBus : Prop :=
  ∀ (s : State) (p : Port), p ≠ 0x0061 → ¬ (0x0330 ≤ p.toNat ∧ p.toNat ≤ 0x0337) →
    ¬ (0x0370 ≤ p.toNat ∧ p.toNat ≤ 0x0377) → ¬ (0x03F8 ≤ p.toNat ∧ p.toNat ≤ 0x03FF) →
    exec (.ior p) s = .next { s with log := recordOf s (some Config.openBusIo) none none :: s.log }

/-- `IOR` of a register window (R132, R71): one call `P.reg_read(p - base)`, whose answer is the result; one answer is
consumed; nothing else changes. The answer is an input of the step (log entry 11). -/
def Obligations.WindowReadsArePassedThrough : Prop :=
  ∀ (s : State) (p : Port),
    (0x0330 ≤ p.toNat → p.toNat ≤ 0x0337 → exec (.ior p) s = .next { s with
      answers := s.answers.tail, asked := s.asked + 1,
      log := recordOf s (some (s.answer (.regRead .scsi (BitVec.ofNat 3 (p.toNat - 0x0330))))) (some .scsiSel)
        (some (.regRead .scsi (BitVec.ofNat 3 (p.toNat - 0x0330)))) :: s.log }) ∧
    (0x0370 ≤ p.toNat → p.toNat ≤ 0x0377 → exec (.ior p) s = .next { s with
      answers := s.answers.tail, asked := s.asked + 1,
      log := recordOf s (some (s.answer (.regRead .fdc (BitVec.ofNat 3 (p.toNat - 0x0370))))) (some .fdcSel)
        (some (.regRead .fdc (BitVec.ofNat 3 (p.toNat - 0x0370)))) :: s.log }) ∧
    (0x03F8 ≤ p.toNat → p.toNat ≤ 0x03FF → exec (.ior p) s = .next { s with
      answers := s.answers.tail, asked := s.asked + 1,
      log := recordOf s (some (s.answer (.regRead .uart (BitVec.ofNat 3 (p.toNat - 0x03F8))))) (some .uartSel)
        (some (.regRead .uart (BitVec.ofNat 3 (p.toNat - 0x03F8)))) :: s.log })

/-- `IOW` to a register window (R133, R71): one call `P.reg_write(p - base, v)`; nothing of the block, RAM or the
inputs changes. -/
def Obligations.WindowWritesArePassedThrough : Prop :=
  ∀ (s : State) (p : Port) (v : Byte),
    (0x0330 ≤ p.toNat → p.toNat ≤ 0x0337 → exec (.iow p v) s = .next { s with
      log := recordOf s none (some .scsiSel)
        (some (.regWrite .scsi (BitVec.ofNat 3 (p.toNat - 0x0330)) v)) :: s.log }) ∧
    (0x0370 ≤ p.toNat → p.toNat ≤ 0x0377 → exec (.iow p v) s = .next { s with
      log := recordOf s none (some .fdcSel)
        (some (.regWrite .fdc (BitVec.ofNat 3 (p.toNat - 0x0370)) v)) :: s.log }) ∧
    (0x03F8 ≤ p.toNat → p.toNat ≤ 0x03FF → exec (.iow p v) s = .next { s with
      log := recordOf s none (some .uartSel)
        (some (.regWrite .uart (BitVec.ofNat 3 (p.toNat - 0x03F8)) v)) :: s.log })

/-- Which select an operation asserts depends only on the kind of cycle and the address or port, never on the data,
the direction, the state or history (R134). -/
def Obligations.SelectDependsOnTheAddressOnly : Prop :=
  (∀ (a : Address) (v : Byte) (s s' t t' : State), exec (.memr a) s = .next t → exec (.memw a v) s' = .next t' →
    t.log.head?.map LogEntry.select? = t'.log.head?.map LogEntry.select?) ∧
  (∀ (p : Port) (v : Byte) (s s' t t' : State), exec (.ior p) s = .next t → exec (.iow p v) s' = .next t' →
    t.log.head?.map LogEntry.select? = t'.log.head?.map LogEntry.select?)

/-! ## The DMA Channel Router -/

/-- R162: `dma_read` and `dma_write` of channel 0 go to the expansion bus, of channel 1 to the floppy controller, of
channel 2 to the SCSI controller, from every state (so for all call sequences, and whatever `L` is). A read completes,
returns the peripheral's answer (an input of the step, log entry 11) and consumes it; a write completes and passes its
byte unchanged; nothing else changes. -/
def Obligations.DmaGoesToTheBoundPeripheral : Prop :=
  ∀ (s : State) (v : Byte),
    exec (.dmar .ch0) s = .next { s with
      answers := s.answers.tail, asked := s.asked + 1,
      log := recordOf s (some (s.answer (.dmaRead .xbus))) (some .dackXbus) (some (.dmaRead .xbus)) :: s.log } ∧
    exec (.dmar .ch1) s = .next { s with
      answers := s.answers.tail, asked := s.asked + 1,
      log := recordOf s (some (s.answer (.dmaRead .fdc))) (some .dackFdc) (some (.dmaRead .fdc)) :: s.log } ∧
    exec (.dmar .ch2) s = .next { s with
      answers := s.answers.tail, asked := s.asked + 1,
      log := recordOf s (some (s.answer (.dmaRead .scsi))) (some .dackScsi) (some (.dmaRead .scsi)) :: s.log } ∧
    exec (.dmaw .ch0 v) s = .next { s with
      log := recordOf s none (some .dackXbus) (some (.dmaWrite .xbus v)) :: s.log } ∧
    exec (.dmaw .ch1 v) s = .next { s with
      log := recordOf s none (some .dackFdc) (some (.dmaWrite .fdc v)) :: s.log } ∧
    exec (.dmaw .ch2 v) s = .next { s with
      log := recordOf s none (some .dackScsi) (some (.dmaWrite .scsi v)) :: s.log }

/-- R165: each peripheral is one collaborator, and is called by its own cycles and no other. The record of an
instruction shows a call on the floppy controller exactly for `IOR` and `IOW` in its window and `DMAR` and `DMAW` of
channel 1, on the SCSI controller for its window and channel 2, on the UART for its window only, and on the expansion
bus for channel 0 only. So an operation on one channel calls no other channel's peripheral. -/
def Obligations.EachPeripheralIsOneCollaborator : Prop :=
  ∀ (i : Instr) (s t : State), exec i s = .next t →
    (t.lastCallIsOn .scsi ↔
      (∃ p : Port, 0x0330 ≤ p.toNat ∧ p.toNat ≤ 0x0337 ∧ (i = .ior p ∨ ∃ v, i = .iow p v)) ∨
      i = .dmar .ch2 ∨ ∃ v, i = .dmaw .ch2 v) ∧
    (t.lastCallIsOn .fdc ↔
      (∃ p : Port, 0x0370 ≤ p.toNat ∧ p.toNat ≤ 0x0377 ∧ (i = .ior p ∨ ∃ v, i = .iow p v)) ∨
      i = .dmar .ch1 ∨ ∃ v, i = .dmaw .ch1 v) ∧
    (t.lastCallIsOn .uart ↔
      ∃ p : Port, 0x03F8 ≤ p.toNat ∧ p.toNat ≤ 0x03FF ∧ (i = .ior p ∨ ∃ v, i = .iow p v)) ∧
    (t.lastCallIsOn .xbus ↔ i = .dmar .ch0 ∨ ∃ v, i = .dmaw .ch0 v)

/-! ## The Control Port State Machine -/

/-- The transition table of R181, for `CPW v`: the write completes, `L` becomes `v` (so `G = v[0]`, `EN = v[1]`), and
the speaker output follows the old `L[1]` and the new `v[1]`. -/
def Obligations.ControlWriteFollowsTheTransitionTable : Prop :=
  ∀ (s : State) (v : Byte), ∃ t, exec (.cpw v) s = .next t ∧
    t.latch = v ∧ t.gate = v.getLsbD 0 ∧ t.enable = v.getLsbD 1 ∧
    (s.latch.getLsbD 1 = false → v.getLsbD 1 = false → t.out = s.out) ∧
    (s.latch.getLsbD 1 = false → v.getLsbD 1 = true → t.out = s.data) ∧
    (s.latch.getLsbD 1 = true → v.getLsbD 1 = false → t.out = false) ∧
    (s.latch.getLsbD 1 = true → v.getLsbD 1 = true → t.out = s.out)

/-- The frame of a control-port write (R182): `CPW v` and `IOW 0x0061, v` do the same; beside `L`, `O` and the output
record, which shows `CTRL_SEL`, no call and the new levels, nothing changes: not `D`, not a byte of memory. -/
def Obligations.ControlWriteFrame : Prop :=
  ∀ (s : State) (v : Byte), ∃ t, exec (.cpw v) s = .next t ∧ exec (.iow 0x0061 v) s = .next t ∧
    t.data = s.data ∧ SameMemory s t ∧ t.ram = s.ram ∧ SameInputs s t ∧ t.resetDone = s.resetDone ∧
    t.log = recordOf t none (some .ctrlSel) none :: s.log

/-- `CPR` (R183): its trace word; it returns the latched value, all eight bits, with no side effect; 0xFF at power-on
and 0x00 after a reset; and `IOR 0x0061` does the same. -/
def Obligations.ControlReadReturnsTheLatch : Prop :=
  encode .cpr = .traceWord 0x20006100 ∧
  (∀ s : State, exec .cpr s = .next { s with log := recordOf s (some s.latch) (some .ctrlSel) none :: s.log } ∧
    exec (.ior 0x0061) s = exec .cpr s) ∧
  State.powerOn.latch = 0xFF ∧
  (∀ s t : State, exec .reset s = .next t → t.latch = 0x00)

/-- `SPKD b` (R184): `D` becomes `b` always; `O` becomes `b` while `L[1] = 1` and is kept otherwise; `L` never changes,
nor a byte of memory; not a bus cycle, so no select, no call. -/
def Obligations.SpeakerDataIsRecordedAndGated : Prop :=
  (∀ b : Bool, encode (.spkd b) = .traceWord (0x60000000 ||| (BitVec.ofBool b).setWidth 32)) ∧
  ∀ (s : State) (b : Bool), exec (.spkd b) s = .next { s with
    data := b
    out := if s.latch.getLsbD 1 then b else s.out
    log := .operation ⟨none, none, none, s.latch.getLsbD 0, s.latch.getLsbD 1,
      if s.latch.getLsbD 1 then b else s.out⟩ :: s.log }

/-- `RESET` (R185): on `L`, `D` and `O` it is `CPW 0x00`; memory and the inputs are untouched; not a bus cycle, so no
select, no call. That the ghost `reset_done` is set is the model's clause (log entry 13). -/
def Obligations.ResetIsAWriteOfZero : Prop :=
  encode .reset = .traceWord 0x70000000 ∧
  ∀ s : State, ∃ t u, exec .reset s = .next t ∧ exec (.cpw 0x00) s = .next u ∧ SameBlock u t ∧
    t.latch = 0x00 ∧ t.data = s.data ∧ t.out = (if s.latch.getLsbD 1 then false else s.out) ∧
    SameMemory s t ∧ t.ram = s.ram ∧ SameInputs s t ∧ t.resetDone = true ∧
    t.log = recordOf t none none none :: s.log

/-- R46: after a machine reset applied to any reachable state, `L = 0x00`, `O = 0`, `D` is unchanged, hence `G = 0` and
`EN = 0`, no byte of memory changes and no peripheral is called (the one record added shows no call); from power-on it
gives (0x00, 0, 0) whatever `SPK_OUT_POWERON` is. -/
def Obligations.ResetFromAReachableStateSilences : Prop :=
  (∀ s : State, Reachable s → ∃ t, exec .reset s = .next t ∧
    t.latch = 0x00 ∧ t.out = false ∧ t.data = s.data ∧ t.gate = false ∧ t.enable = false ∧
    SameMemory s t ∧ t.ram = s.ram ∧ SameInputs s t ∧ t.log = recordOf t none none none :: s.log) ∧
  (∀ (trace : List Presented) (answers : List Byte), ∃ t, exec .reset (State.powerOnWith trace answers) = .next t ∧
    t.latch = 0x00 ∧ t.data = false ∧ t.out = false)

/-- R188: writing the same value twice changes nothing the second time (of `L`, `D`, `O`, `G`, `EN`). -/
def Obligations.ControlWriteIsIdempotent : Prop :=
  ∀ (s : State) (v : Byte), ∃ t u, exec (.cpw v) s = .next t ∧ exec (.cpw v) t = .next u ∧
    SameBlock t u ∧ u.gate = t.gate ∧ u.enable = t.enable

/-- R189: bits 7:2 of the value written have no effect on `O`, `D`, `G` or `EN`, and are stored. -/
def Obligations.StoredBitsHaveNoEffect : Prop :=
  ∀ (s : State) (v w : Byte), v.extractLsb' 0 2 = w.extractLsb' 0 2 →
    ∃ t u, exec (.cpw v) s = .next t ∧ exec (.cpw w) s = .next u ∧
      t.out = u.out ∧ t.data = u.data ∧ t.gate = u.gate ∧ t.enable = u.enable ∧
      t.latch.extractLsb' 2 6 = v.extractLsb' 2 6 ∧ u.latch.extractLsb' 2 6 = w.extractLsb' 2 6

/-- R187: in a state with `O = L[1] & D`, a write gives `O = v[1] & D` and a data change gives `O = L[1] & b`, and the
closed form holds again. -/
def Obligations.ClosedFormIsKeptByWritesAndData : Prop :=
  ∀ s : State, s.Closed →
    (∀ v : Byte, ∃ t, exec (.cpw v) s = .next t ∧ t.out = (v.getLsbD 1 && s.data) ∧ t.Closed) ∧
    (∀ b : Bool, ∃ t, exec (.spkd b) s = .next t ∧ t.out = (s.latch.getLsbD 1 && b) ∧ t.Closed)

/-- R192: from a state with `O = L[1] & D`, a control-port write and a data change end in the same triple
(`v`, `b`, `v[1] & b`) in both orders, memory and inputs included. -/
def Obligations.WriteAndDataChangeCommute : Prop :=
  ∀ (s : State) (v : Byte) (b : Bool), s.Closed →
    ∃ t u, runOps [.cpw v, .spkd b] s = .next t ∧ runOps [.spkd b, .cpw v] s = .next u ∧
      SameBlock t u ∧ t.latch = v ∧ t.data = b ∧ t.out = (v.getLsbD 1 && b) ∧
      SameMemory t u ∧ SameInputs t u

/-- R190: in every reachable state, whenever the speaker is disabled its level is 0; and whatever instruction enables
it, the level at that moment is the current data bit. -/
def Obligations.NoStaleSpeakerLevel : Prop :=
  ∀ s : State, Reachable s →
    (s.enable = false → s.out = false) ∧
    ∀ (i : Instr) (t : State), s.enable = false → exec i s = .next t → t.enable = true →
      t.out = t.data ∧ t.data = s.data

/-! ## The decode rows -/

/-- The memory rows of R92, meaning R60: given an address its row covers, each row's presentation completes, is
answered with the row's region record and offset (none for Unmapped), and changes nothing but the output record. That
a decode row is run as a look-up of its own is the model's choice, log entry 4. -/
def Obligations.MemoryRowsAnswerTheirRegion : Prop :=
  ∀ (s : State) (a : Address),
    ((Instr.memRam1 a).wf = true → exec (.memRam1 a) s = .next { s with
      log := .lookup (.ram ⟨0x00000, 0xA0000, .ram⟩ a) :: s.log }) ∧
    ((Instr.memRam2 a).wf = true → exec (.memRam2 a) s = .next { s with
      log := .lookup (.ram ⟨0x00000, 0xA0000, .ram⟩ a) :: s.log }) ∧
    ((Instr.memUnmapped3 a).wf = true → exec (.memUnmapped3 a) s = .next { s with
      log := .lookup .unmapped :: s.log }) ∧
    ((Instr.memUnmapped4 a).wf = true → exec (.memUnmapped4 a) s = .next { s with
      log := .lookup .unmapped :: s.log }) ∧
    ((Instr.memUnmapped5 a).wf = true → exec (.memUnmapped5 a) s = .next { s with
      log := .lookup .unmapped :: s.log }) ∧
    ((Instr.memUnmapped6 a).wf = true → exec (.memUnmapped6 a) s = .next { s with
      log := .lookup .unmapped :: s.log }) ∧
    ((Instr.memRom7 a).wf = true → exec (.memRom7 a) s = .next { s with
      log := .lookup (.rom ⟨0xF8000, 0x08000, .rom⟩ (BitVec.ofNat 15 (a.toNat - 0xF8000))) :: s.log })

/-- The port rows of R93, meaning R62 and R63, likewise (log entry 4). The control port has no offset; looking it up
neither reads nor writes the latch. -/
def Obligations.PortRowsAnswerTheirTarget : Prop :=
  ∀ s : State,
    exec .ioCtrl s = .next { s with log := .lookup .ctrl :: s.log } ∧
    ∀ p : Port,
      ((Instr.ioScsi p).wf = true → exec (.ioScsi p) s = .next { s with
        log := .lookup (.window ⟨0x0330, 8, .scsi⟩ (BitVec.ofNat 3 (p.toNat - 0x0330))) :: s.log }) ∧
      ((Instr.ioFdc p).wf = true → exec (.ioFdc p) s = .next { s with
        log := .lookup (.window ⟨0x0370, 8, .fdc⟩ (BitVec.ofNat 3 (p.toNat - 0x0370))) :: s.log }) ∧
      ((Instr.ioUart p).wf = true → exec (.ioUart p) s = .next { s with
        log := .lookup (.window ⟨0x03F8, 8, .uart⟩ (BitVec.ofNat 3 (p.toNat - 0x03F8))) :: s.log })

/-- The channel rows of R94, meaning R162, likewise (log entry 4), with the select each asserts. -/
def Obligations.ChannelRowsAnswerTheirPeripheral : Prop :=
  ∀ s : State,
    exec .dmaCh0 s = .next { s with log := .lookup (.dma .xbus) :: s.log } ∧
    exec .dmaCh1 s = .next { s with log := .lookup (.dma .fdc) :: s.log } ∧
    exec .dmaCh2 s = .next { s with log := .lookup (.dma .scsi) :: s.log } ∧
    (Selection.dma .xbus).select = some .dackXbus ∧ (Selection.dma .fdc).select = some .dackFdc ∧
    (Selection.dma .scsi).select = some .dackScsi

/-! ## Frames over all instructions -/

/-- R31: the only operations that write `L` are the control-port writes and `RESET`. -/
def Obligations.OnlyControlWritesAndResetChangeTheLatch : Prop :=
  ∀ (i : Instr) (s t : State), exec i s = .next t → t.latch ≠ s.latch → writesControlPort i = true ∨ i = .reset

/-- R32: "The only operation that writes `D` is `SPKD`". -/
def Obligations.OnlySpeakerDataChangesTheDataBit : Prop :=
  ∀ (i : Instr) (s t : State), exec i s = .next t → t.data ≠ s.data → ∃ b, i = .spkd b

/-- R33: `O` is written only by a control-port write that changes bit 1, by `SPKD` while `L[1] = 1`, and by `RESET`
while `L[1] = 1`. -/
def Obligations.OnlyGatedEventsChangeTheSpeaker : Prop :=
  ∀ (i : Instr) (s t : State), exec i s = .next t → t.out ≠ s.out →
    (writesControlPort i = true ∧ t.latch.getLsbD 1 ≠ s.latch.getLsbD 1) ∨
    ((∃ b, i = .spkd b) ∧ s.latch.getLsbD 1 = true) ∨ (i = .reset ∧ s.latch.getLsbD 1 = true)

/-- R131, R42, R185: a byte of memory changes only by a `MEMW` to that very address, which is a RAM address. -/
def Obligations.OnlyMemoryWritesChangeMemory : Prop :=
  ∀ (i : Instr) (s t : State) (b : Address), exec i s = .next t → t.memByte b ≠ s.memByte b →
    ∃ v, i = .memw b v ∧ b.toNat ≤ 0x9FFFF ∧ t.memByte b = v

/-- R224, R225: each of the ten operations adds exactly one observation to the output record, and its levels are those
of the state after it; the form of the record is the spec's decision D2. A decode row adds one look-up answer and no
levels (the model's choice, log entry 4). Neither moves the trace. -/
def Obligations.EveryOperationRecordsItsLevels : Prop :=
  ∀ (i : Instr) (s t : State), exec i s = .next t →
    t.pending = s.pending ∧ t.index = s.index ∧
    (isOperation i = true → ∃ o, t.log = .operation o :: s.log ∧
      o.gate = t.latch.getLsbD 0 ∧ o.enable = t.latch.getLsbD 1 ∧ o.out = t.out) ∧
    (isOperation i = false → ∃ a, t.log = .lookup a :: s.log)

/-! ## The machine -/

/-- R240: every operation and every state has a next state, and no step faults. -/
def Obligations.NoInstructionCanFail : Prop :=
  (∀ (i : Instr) (s : State), ∃ t, exec i s = .next t) ∧ (∀ (s : State) (f : Fault), step s ≠ .fault f)

/-- A step runs the decoded instruction: when what is presented next decodes to `i`, the step is `exec i` at the state
with that presentation taken and the trace index advanced by 1 (R104). With nothing presented the block stands still
(log entry 2); a bare port of no row is answered Unmapped (R93, log entry 5). -/
def Obligations.StepRunsTheDecodedInstruction : Prop :=
  (∀ (s : State) (x : Presented) (rest : List Presented) (i : Instr), s.pending = x :: rest → decode x = .ok i →
    step s = exec i { s with pending := rest, index := s.index + 1 }) ∧
  (∀ s : State, s.pending = [] → step s = .next s) ∧
  (∀ (s : State) (p : Port) (rest : List Presented), s.pending = .ioPort p :: rest →
    decode (.ioPort p) = .error .portSelectsNothing →
    step s = .next { s with pending := rest, index := s.index + 1, log := .lookup .unmapped :: s.log })

/-- A step is refused exactly when what is presented next does not decode and is a trace word or channel 3, and the
refusal carries the decoder's reason. For trace words this is R99. The rest of the 'exactly' is the model's: channel 3
presented alone is refused (log entry 16), a bare port of no row is answered and not refused (log entry 5), and with
nothing pending the state stands (log entry 2). -/
def Obligations.StepRefusesExactlyMalformedPresentations : Prop :=
  ∀ (s : State) (q : Refusal), step s = .refused q ↔
    ∃ x rest r, s.pending = x :: rest ∧ decode x = .error r ∧ q = .malformed r ∧
      ((∃ w, x = .traceWord w) ∨ x = .dmaChannel 3)

/-- Every step keeps the invariant: the speaker is silent while disabled (R47 J), `O = L[1] & D` once a `RESET` has
happened (R47 Inv), and RAM stays in canonical form (log entry 7). -/
def Obligations.EveryStepKeepsTheInvariant : Prop :=
  ∀ s t : State, s.Inv → step s = .next t → t.Inv

/-- The invariant holds at power-on, with any trace and answers, and in the state after reset. -/
def Obligations.InvariantHoldsAtPowerOnAndReset : Prop :=
  (∀ (trace : List Presented) (answers : List Byte), (State.powerOnWith trace answers).Inv) ∧ State.reset.Inv

/-- R47 over the reachable states: (J) in every one; (Inv) in every one after a `RESET`, and in every one at all but
those where the open `SPK_OUT_POWERON` is 1 and `L[1] = 1`, `D = 0`, `O = 1`. -/
def Obligations.ReachableStatesAreSilentAndClosed : Prop :=
  ∀ s : State, Reachable s →
    (s.enable = false → s.out = false) ∧
    (s.resetDone = true → s.out = (s.enable && s.data)) ∧
    (s.out = (s.enable && s.data) ∨
      (Config.spkOutPowerOn = true ∧ s.enable = true ∧ s.data = false ∧ s.out = true))

/-- R74 (a): a `MEMR` of a RAM address returns the byte of the latest earlier `MEMW` to it, whatever operations that
are no `MEMW` to it come between. -/
def Obligations.MemoryReadReturnsTheLatestWrite : Prop :=
  ∀ (a : Address) (v : Byte) (ops : List Instr) (s : State), a.toNat ≤ 0x9FFFF → (∀ i ∈ ops, ∀ w, i ≠ .memw a w) →
    ∃ t u, runOps (.memw a v :: ops) s = .next t ∧ exec (.memr a) t = .next u ∧
      u.log = recordOf t (some v) (some .ramSel) (some (.ramRead a)) :: t.log

/-- R74 (b): a `CPR` returns the value of the latest earlier control-port write, whatever operations that are neither
such a write nor a `RESET` come between; and 0x00 where a `RESET` came later than every write. -/
def Obligations.ControlReadReturnsTheLatestWrite : Prop :=
  ∀ (v : Byte) (ops : List Instr) (s : State), (∀ i ∈ ops, writesControlPort i = false ∧ i ≠ .reset) →
    (∃ t u, runOps (.cpw v :: ops) s = .next t ∧ exec .cpr t = .next u ∧
      u.log = recordOf t (some v) (some .ctrlSel) none :: t.log) ∧
    (∃ t u, runOps (.reset :: ops) s = .next t ∧ exec .cpr t = .next u ∧
      u.log = recordOf t (some 0x00) (some .ctrlSel) none :: t.log)

/-- R104, R246: a trace of well-formed operations, in whatever order its sources' events were merged, is applied
strictly in order, one operation a step, none dropped and none merged: after as many steps as it has operations nothing
is pending, the index has advanced by its length, and the rest of the state is that of applying the operations one
after the other. -/
def Obligations.TracesRunInOrderOneOperationAStep : Prop :=
  ∀ (ops : List Instr) (s u : State), (∀ i ∈ ops, i.wf = true) → s.pending = ops.map encode →
    runOps ops s = .next u →
    Host.Core.run Sys2Proof.core ops.length s =
      .next { u with pending := [], index := s.index + ops.length }

/-! ## Power-on, boot, construction, save and restore -/

/-- R45, R34: the power-on state, and the two derived outputs. `O` is the open parameter. -/
def Obligations.PowerOnState : Prop :=
  State.powerOn.latch = 0xFF ∧ State.powerOn.data = false ∧ State.powerOn.out = Config.spkOutPowerOn ∧
  State.powerOn.gate = true ∧ State.powerOn.enable = true ∧
  ∀ a : Address, a.toNat ≤ 0x9FFFF → State.powerOn.memByte a = Config.ramPowerOn a.toNat

/-- R272, R274: from power-on, a trace that meets the boot premise reaches in one step the picture after the first
reset: the state `State.reset` but for the rest of the trace, the answers, the index and the one record. -/
def Obligations.BootPremiseReachesTheResetState : Prop :=
  ∀ (trace : List Presented) (answers : List Byte), bootPremise trace →
    ∃ t, step (State.powerOnWith trace answers) = .next t ∧
      t = { State.reset with
        pending := trace.tail, answers := answers, index := 1, log := recordOf State.reset none none none :: [] }

/-- R221, R223, vector K1: construction with this hardware's configuration never refuses and gives the power-on
state. -/
def Obligations.ThisConfigurationIsAccepted : Prop :=
  construct Config.glue = .next State.powerOn

/-- R222 (the spec's decision D24): construction succeeds exactly when the six clauses of the check hold, and refuses
with a configuration error otherwise. That a channel listed twice with one peripheral is refused is the model's choice
(log entry 15). -/
def Obligations.ConstructionChecksTheConfiguration : Prop :=
  ∀ p : Params,
    (construct p = .next State.powerOn ↔
      (∀ r ∈ p.regions, 1 ≤ r.size ∧ r.base + r.size - 1 ≤ 0xFFFFF) ∧
      p.regions.Pairwise (fun r s => r.base + r.size ≤ s.base) ∧
      (∀ w ∈ p.windows, 1 ≤ w.size ∧ w.base + w.size - 1 ≤ 0xFFFF) ∧
      p.windows.Pairwise (fun v w => ∀ n, ¬ ((v.base ≤ n ∧ n < v.base + v.size) ∧ (w.base ≤ n ∧ n < w.base + w.size))) ∧
      (∀ w ∈ p.windows, ¬ (w.base ≤ p.ctrlPort.toNat ∧ p.ctrlPort.toNat < w.base + w.size)) ∧
      (∀ c : Channel, ∃ b, p.bindings.filter (fun x => x.index = c) = [b])) ∧
    (construct p = .next State.powerOn ∨ ∃ e, construct p = .refused (.configError e))

/-- R227, R228: a triple saved from a reachable state can be restored into any state: it sets `L`, `D`, `O` and with
them `G`, `EN`, runs no transition logic, makes no call, and leaves memory, the inputs and the record alone. The ghost
after a restore is log entry 14. -/
def Obligations.SavedReachableTriplesAreRestored : Prop :=
  ∀ s u : State, Reachable s → ∃ t, restore s.save u = .next t ∧
    SameBlock s t ∧ t.gate = s.gate ∧ t.enable = s.enable ∧
    SameMemory u t ∧ t.ram = u.ram ∧ SameInputs u t ∧ t.log = u.log

/-- R228, U15: a restore is refused exactly for the triples no trace produces; every triple that breaks (J) is among
them. -/
def Obligations.UnreachableTriplesAreRefused : Prop :=
  (∀ (k : Saved) (u : State), restore k u = .refused .restoreUnreachable ↔
    ¬ ∃ s, Reachable s ∧ s.save = k) ∧
  (∀ (k : Saved) (u : State), k.latch.getLsbD 1 = false → k.out = true → restore k u = .refused .restoreUnreachable)
end

