-- ==== Sys2Proof/Laws/State.lean ====
section
/-! SUPPORT. One lemma per field per update of the state, so that no proof unfolds a record update. -/

namespace Sys2Proof.Machine

variable (s : State)

@[simp] theorem State.observe_latch (r : Option Byte) (sel : Option Select) (c : Option Call) : (s.observe r sel c).latch = s.latch := rfl
@[simp] theorem State.observe_data (r : Option Byte) (sel : Option Select) (c : Option Call) : (s.observe r sel c).data = s.data := rfl
@[simp] theorem State.observe_out (r : Option Byte) (sel : Option Select) (c : Option Call) : (s.observe r sel c).out = s.out := rfl
@[simp] theorem State.observe_ram (r : Option Byte) (sel : Option Select) (c : Option Call) : (s.observe r sel c).ram = s.ram := rfl
@[simp] theorem State.observe_resetDone (r : Option Byte) (sel : Option Select) (c : Option Call) : (s.observe r sel c).resetDone = s.resetDone := rfl
@[simp] theorem State.observe_pending (r : Option Byte) (sel : Option Select) (c : Option Call) : (s.observe r sel c).pending = s.pending := rfl
@[simp] theorem State.observe_index (r : Option Byte) (sel : Option Select) (c : Option Call) : (s.observe r sel c).index = s.index := rfl
@[simp] theorem State.observe_answers (r : Option Byte) (sel : Option Select) (c : Option Call) : (s.observe r sel c).answers = s.answers := rfl
@[simp] theorem State.observe_asked (r : Option Byte) (sel : Option Select) (c : Option Call) : (s.observe r sel c).asked = s.asked := rfl
@[simp] theorem State.observe_log (r : Option Byte) (sel : Option Select) (c : Option Call) : (s.observe r sel c).log = .operation ⟨r, sel, c, s.gate, s.enable, s.out⟩ :: s.log := rfl
@[simp] theorem State.observe_gate (r : Option Byte) (sel : Option Select) (c : Option Call) : (s.observe r sel c).gate = s.gate := rfl
@[simp] theorem State.observe_enable (r : Option Byte) (sel : Option Select) (c : Option Call) : (s.observe r sel c).enable = s.enable := rfl

@[simp] theorem State.answerLookup_latch (a : Selection) : (s.answerLookup a).latch = s.latch := rfl
@[simp] theorem State.answerLookup_data (a : Selection) : (s.answerLookup a).data = s.data := rfl
@[simp] theorem State.answerLookup_out (a : Selection) : (s.answerLookup a).out = s.out := rfl
@[simp] theorem State.answerLookup_ram (a : Selection) : (s.answerLookup a).ram = s.ram := rfl
@[simp] theorem State.answerLookup_resetDone (a : Selection) : (s.answerLookup a).resetDone = s.resetDone := rfl
@[simp] theorem State.answerLookup_pending (a : Selection) : (s.answerLookup a).pending = s.pending := rfl
@[simp] theorem State.answerLookup_index (a : Selection) : (s.answerLookup a).index = s.index := rfl
@[simp] theorem State.answerLookup_answers (a : Selection) : (s.answerLookup a).answers = s.answers := rfl
@[simp] theorem State.answerLookup_asked (a : Selection) : (s.answerLookup a).asked = s.asked := rfl
@[simp] theorem State.answerLookup_log (a : Selection) : (s.answerLookup a).log = .lookup a :: s.log := rfl
@[simp] theorem State.answerLookup_gate (a : Selection) : (s.answerLookup a).gate = s.gate := rfl
@[simp] theorem State.answerLookup_enable (a : Selection) : (s.answerLookup a).enable = s.enable := rfl

@[simp] theorem State.takeAnswer_latch : (s.takeAnswer).latch = s.latch := rfl
@[simp] theorem State.takeAnswer_data : (s.takeAnswer).data = s.data := rfl
@[simp] theorem State.takeAnswer_out : (s.takeAnswer).out = s.out := rfl
@[simp] theorem State.takeAnswer_ram : (s.takeAnswer).ram = s.ram := rfl
@[simp] theorem State.takeAnswer_resetDone : (s.takeAnswer).resetDone = s.resetDone := rfl
@[simp] theorem State.takeAnswer_pending : (s.takeAnswer).pending = s.pending := rfl
@[simp] theorem State.takeAnswer_index : (s.takeAnswer).index = s.index := rfl
@[simp] theorem State.takeAnswer_answers : (s.takeAnswer).answers = s.answers.tail := rfl
@[simp] theorem State.takeAnswer_asked : (s.takeAnswer).asked = s.asked + 1 := rfl
@[simp] theorem State.takeAnswer_log : (s.takeAnswer).log = s.log := rfl
@[simp] theorem State.takeAnswer_gate : (s.takeAnswer).gate = s.gate := rfl
@[simp] theorem State.takeAnswer_enable : (s.takeAnswer).enable = s.enable := rfl

@[simp] theorem State.peripheralRead_latch (sel : Select) (c : Call) : (s.peripheralRead sel c).latch = s.latch := rfl
@[simp] theorem State.peripheralRead_data (sel : Select) (c : Call) : (s.peripheralRead sel c).data = s.data := rfl
@[simp] theorem State.peripheralRead_out (sel : Select) (c : Call) : (s.peripheralRead sel c).out = s.out := rfl
@[simp] theorem State.peripheralRead_ram (sel : Select) (c : Call) : (s.peripheralRead sel c).ram = s.ram := rfl
@[simp] theorem State.peripheralRead_resetDone (sel : Select) (c : Call) : (s.peripheralRead sel c).resetDone = s.resetDone := rfl
@[simp] theorem State.peripheralRead_pending (sel : Select) (c : Call) : (s.peripheralRead sel c).pending = s.pending := rfl
@[simp] theorem State.peripheralRead_index (sel : Select) (c : Call) : (s.peripheralRead sel c).index = s.index := rfl
@[simp] theorem State.peripheralRead_answers (sel : Select) (c : Call) : (s.peripheralRead sel c).answers = s.answers.tail := rfl
@[simp] theorem State.peripheralRead_asked (sel : Select) (c : Call) : (s.peripheralRead sel c).asked = s.asked + 1 := rfl
@[simp] theorem State.peripheralRead_log (sel : Select) (c : Call) : (s.peripheralRead sel c).log = .operation ⟨some (s.answer c), some sel, some c, s.gate, s.enable, s.out⟩ :: s.log := rfl
@[simp] theorem State.peripheralRead_gate (sel : Select) (c : Call) : (s.peripheralRead sel c).gate = s.gate := rfl
@[simp] theorem State.peripheralRead_enable (sel : Select) (c : Call) : (s.peripheralRead sel c).enable = s.enable := rfl

@[simp] theorem State.peripheralWrite_latch (sel : Select) (c : Call) : (s.peripheralWrite sel c).latch = s.latch := rfl
@[simp] theorem State.peripheralWrite_data (sel : Select) (c : Call) : (s.peripheralWrite sel c).data = s.data := rfl
@[simp] theorem State.peripheralWrite_out (sel : Select) (c : Call) : (s.peripheralWrite sel c).out = s.out := rfl
@[simp] theorem State.peripheralWrite_ram (sel : Select) (c : Call) : (s.peripheralWrite sel c).ram = s.ram := rfl
@[simp] theorem State.peripheralWrite_resetDone (sel : Select) (c : Call) : (s.peripheralWrite sel c).resetDone = s.resetDone := rfl
@[simp] theorem State.peripheralWrite_pending (sel : Select) (c : Call) : (s.peripheralWrite sel c).pending = s.pending := rfl
@[simp] theorem State.peripheralWrite_index (sel : Select) (c : Call) : (s.peripheralWrite sel c).index = s.index := rfl
@[simp] theorem State.peripheralWrite_answers (sel : Select) (c : Call) : (s.peripheralWrite sel c).answers = s.answers := rfl
@[simp] theorem State.peripheralWrite_asked (sel : Select) (c : Call) : (s.peripheralWrite sel c).asked = s.asked := rfl
@[simp] theorem State.peripheralWrite_log (sel : Select) (c : Call) : (s.peripheralWrite sel c).log = .operation ⟨none, some sel, some c, s.gate, s.enable, s.out⟩ :: s.log := rfl
@[simp] theorem State.peripheralWrite_gate (sel : Select) (c : Call) : (s.peripheralWrite sel c).gate = s.gate := rfl
@[simp] theorem State.peripheralWrite_enable (sel : Select) (c : Call) : (s.peripheralWrite sel c).enable = s.enable := rfl

@[simp] theorem State.writeRam_latch (off : Address) (v : Byte) : (s.writeRam off v).latch = s.latch := rfl
@[simp] theorem State.writeRam_data (off : Address) (v : Byte) : (s.writeRam off v).data = s.data := rfl
@[simp] theorem State.writeRam_out (off : Address) (v : Byte) : (s.writeRam off v).out = s.out := rfl
@[simp] theorem State.writeRam_ram (off : Address) (v : Byte) : (s.writeRam off v).ram = Memory.write s.ram off.toNat v := rfl
@[simp] theorem State.writeRam_resetDone (off : Address) (v : Byte) : (s.writeRam off v).resetDone = s.resetDone := rfl
@[simp] theorem State.writeRam_pending (off : Address) (v : Byte) : (s.writeRam off v).pending = s.pending := rfl
@[simp] theorem State.writeRam_index (off : Address) (v : Byte) : (s.writeRam off v).index = s.index := rfl
@[simp] theorem State.writeRam_answers (off : Address) (v : Byte) : (s.writeRam off v).answers = s.answers := rfl
@[simp] theorem State.writeRam_asked (off : Address) (v : Byte) : (s.writeRam off v).asked = s.asked := rfl
@[simp] theorem State.writeRam_log (off : Address) (v : Byte) : (s.writeRam off v).log = s.log := rfl
@[simp] theorem State.writeRam_gate (off : Address) (v : Byte) : (s.writeRam off v).gate = s.gate := rfl
@[simp] theorem State.writeRam_enable (off : Address) (v : Byte) : (s.writeRam off v).enable = s.enable := rfl

@[simp] theorem State.writeLatch_latch (v : Byte) : (s.writeLatch v).latch = v := rfl
@[simp] theorem State.writeLatch_data (v : Byte) : (s.writeLatch v).data = s.data := rfl
@[simp] theorem State.writeLatch_out (v : Byte) : (s.writeLatch v).out = speakerAfterWrite s.enable (enableBit v) s.data s.out := rfl
@[simp] theorem State.writeLatch_ram (v : Byte) : (s.writeLatch v).ram = s.ram := rfl
@[simp] theorem State.writeLatch_resetDone (v : Byte) : (s.writeLatch v).resetDone = s.resetDone := rfl
@[simp] theorem State.writeLatch_pending (v : Byte) : (s.writeLatch v).pending = s.pending := rfl
@[simp] theorem State.writeLatch_index (v : Byte) : (s.writeLatch v).index = s.index := rfl
@[simp] theorem State.writeLatch_answers (v : Byte) : (s.writeLatch v).answers = s.answers := rfl
@[simp] theorem State.writeLatch_asked (v : Byte) : (s.writeLatch v).asked = s.asked := rfl
@[simp] theorem State.writeLatch_log (v : Byte) : (s.writeLatch v).log = s.log := rfl
@[simp] theorem State.writeLatch_gate (v : Byte) : (s.writeLatch v).gate = gateBit v := rfl
@[simp] theorem State.writeLatch_enable (v : Byte) : (s.writeLatch v).enable = enableBit v := rfl

@[simp] theorem State.controlRead_latch : (s.controlRead).latch = s.latch := rfl
@[simp] theorem State.controlRead_data : (s.controlRead).data = s.data := rfl
@[simp] theorem State.controlRead_out : (s.controlRead).out = s.out := rfl
@[simp] theorem State.controlRead_ram : (s.controlRead).ram = s.ram := rfl
@[simp] theorem State.controlRead_resetDone : (s.controlRead).resetDone = s.resetDone := rfl
@[simp] theorem State.controlRead_pending : (s.controlRead).pending = s.pending := rfl
@[simp] theorem State.controlRead_index : (s.controlRead).index = s.index := rfl
@[simp] theorem State.controlRead_answers : (s.controlRead).answers = s.answers := rfl
@[simp] theorem State.controlRead_asked : (s.controlRead).asked = s.asked := rfl
@[simp] theorem State.controlRead_log : (s.controlRead).log = .operation ⟨some s.latch, some .ctrlSel, none, s.gate, s.enable, s.out⟩ :: s.log := rfl
@[simp] theorem State.controlRead_gate : (s.controlRead).gate = s.gate := rfl
@[simp] theorem State.controlRead_enable : (s.controlRead).enable = s.enable := rfl

@[simp] theorem State.controlWrite_latch (v : Byte) : (s.controlWrite v).latch = v := rfl
@[simp] theorem State.controlWrite_data (v : Byte) : (s.controlWrite v).data = s.data := rfl
@[simp] theorem State.controlWrite_out (v : Byte) : (s.controlWrite v).out = speakerAfterWrite s.enable (enableBit v) s.data s.out := rfl
@[simp] theorem State.controlWrite_ram (v : Byte) : (s.controlWrite v).ram = s.ram := rfl
@[simp] theorem State.controlWrite_resetDone (v : Byte) : (s.controlWrite v).resetDone = s.resetDone := rfl
@[simp] theorem State.controlWrite_pending (v : Byte) : (s.controlWrite v).pending = s.pending := rfl
@[simp] theorem State.controlWrite_index (v : Byte) : (s.controlWrite v).index = s.index := rfl
@[simp] theorem State.controlWrite_answers (v : Byte) : (s.controlWrite v).answers = s.answers := rfl
@[simp] theorem State.controlWrite_asked (v : Byte) : (s.controlWrite v).asked = s.asked := rfl
@[simp] theorem State.controlWrite_log (v : Byte) : (s.controlWrite v).log = .operation ⟨none, some .ctrlSel, none, gateBit v, enableBit v,
      speakerAfterWrite s.enable (enableBit v) s.data s.out⟩ :: s.log := rfl
@[simp] theorem State.controlWrite_gate (v : Byte) : (s.controlWrite v).gate = gateBit v := rfl
@[simp] theorem State.controlWrite_enable (v : Byte) : (s.controlWrite v).enable = enableBit v := rfl

@[simp] theorem State.recordData_latch (b : Bool) : (s.recordData b).latch = s.latch := rfl
@[simp] theorem State.recordData_data (b : Bool) : (s.recordData b).data = b := rfl
@[simp] theorem State.recordData_out (b : Bool) : (s.recordData b).out = speakerAfterData s.enable b s.out := rfl
@[simp] theorem State.recordData_ram (b : Bool) : (s.recordData b).ram = s.ram := rfl
@[simp] theorem State.recordData_resetDone (b : Bool) : (s.recordData b).resetDone = s.resetDone := rfl
@[simp] theorem State.recordData_pending (b : Bool) : (s.recordData b).pending = s.pending := rfl
@[simp] theorem State.recordData_index (b : Bool) : (s.recordData b).index = s.index := rfl
@[simp] theorem State.recordData_answers (b : Bool) : (s.recordData b).answers = s.answers := rfl
@[simp] theorem State.recordData_asked (b : Bool) : (s.recordData b).asked = s.asked := rfl
@[simp] theorem State.recordData_log (b : Bool) : (s.recordData b).log = s.log := rfl
@[simp] theorem State.recordData_gate (b : Bool) : (s.recordData b).gate = s.gate := rfl
@[simp] theorem State.recordData_enable (b : Bool) : (s.recordData b).enable = s.enable := rfl

@[simp] theorem State.machineReset_latch : (s.machineReset).latch = Config.latchReset := rfl
@[simp] theorem State.machineReset_data : (s.machineReset).data = s.data := rfl
@[simp] theorem State.machineReset_out : (s.machineReset).out = speakerAfterWrite s.enable (enableBit Config.latchReset) s.data s.out := rfl
@[simp] theorem State.machineReset_ram : (s.machineReset).ram = s.ram := rfl
@[simp] theorem State.machineReset_resetDone : (s.machineReset).resetDone = true := rfl
@[simp] theorem State.machineReset_pending : (s.machineReset).pending = s.pending := rfl
@[simp] theorem State.machineReset_index : (s.machineReset).index = s.index := rfl
@[simp] theorem State.machineReset_answers : (s.machineReset).answers = s.answers := rfl
@[simp] theorem State.machineReset_asked : (s.machineReset).asked = s.asked := rfl
@[simp] theorem State.machineReset_log : (s.machineReset).log = s.log := rfl
@[simp] theorem State.machineReset_gate : (s.machineReset).gate = gateBit Config.latchReset := rfl
@[simp] theorem State.machineReset_enable : (s.machineReset).enable = enableBit Config.latchReset := rfl

@[simp] theorem State.advance_latch : (s.advance).latch = s.latch := rfl
@[simp] theorem State.advance_data : (s.advance).data = s.data := rfl
@[simp] theorem State.advance_out : (s.advance).out = s.out := rfl
@[simp] theorem State.advance_ram : (s.advance).ram = s.ram := rfl
@[simp] theorem State.advance_resetDone : (s.advance).resetDone = s.resetDone := rfl
@[simp] theorem State.advance_pending : (s.advance).pending = s.pending.tail := rfl
@[simp] theorem State.advance_index : (s.advance).index = s.index + 1 := rfl
@[simp] theorem State.advance_answers : (s.advance).answers = s.answers := rfl
@[simp] theorem State.advance_asked : (s.advance).asked = s.asked := rfl
@[simp] theorem State.advance_log : (s.advance).log = s.log := rfl
@[simp] theorem State.advance_gate : (s.advance).gate = s.gate := rfl
@[simp] theorem State.advance_enable : (s.advance).enable = s.enable := rfl

@[simp] theorem State.present_latch (x : Presented) : (s.present x).latch = s.latch := rfl
@[simp] theorem State.present_data (x : Presented) : (s.present x).data = s.data := rfl
@[simp] theorem State.present_out (x : Presented) : (s.present x).out = s.out := rfl
@[simp] theorem State.present_ram (x : Presented) : (s.present x).ram = s.ram := rfl
@[simp] theorem State.present_resetDone (x : Presented) : (s.present x).resetDone = s.resetDone := rfl
@[simp] theorem State.present_pending (x : Presented) : (s.present x).pending = x :: s.pending := rfl
@[simp] theorem State.present_index (x : Presented) : (s.present x).index = s.index := rfl
@[simp] theorem State.present_answers (x : Presented) : (s.present x).answers = s.answers := rfl
@[simp] theorem State.present_asked (x : Presented) : (s.present x).asked = s.asked := rfl
@[simp] theorem State.present_log (x : Presented) : (s.present x).log = s.log := rfl
@[simp] theorem State.present_gate (x : Presented) : (s.present x).gate = s.gate := rfl
@[simp] theorem State.present_enable (x : Presented) : (s.present x).enable = s.enable := rfl

theorem State.ramByte_congr (t : State) (h : t.ram = s.ram) (off : Address) : t.ramByte off = s.ramByte off := by
  simp only [State.ramByte, h]

/-- Reading a byte depends on RAM alone. -/
theorem State.memByte_congr (t : State) (h : t.ram = s.ram) (a : Address) : t.memByte a = s.memByte a := by
  simp only [State.memByte, State.ramByte, h]

end Sys2Proof.Machine
end

