-- ==== Sys2Proof/Laws/Memory.lean ====
section
/-! SUPPORT. The laws of RAM: read after write, a write leaves every other byte alone, and every memory operation
keeps the canonical form. -/

namespace Sys2Proof.Machine

theorem Memory.lookup_write_same (m : Memory) (a : Nat) (v : Byte) :
    Memory.lookup (Memory.write m a v) a = some v := by
  induction m with
  | nil => simp [Memory.write, Memory.lookup]
  | cons c m ih =>
    obtain ⟨b, w⟩ := c
    simp only [Memory.write]
    split
    · simp [Memory.lookup]
    · split
      · simp [Memory.lookup]
      · simp_all [Memory.lookup]

theorem Memory.lookup_write_other (m : Memory) (a b : Nat) (v : Byte) (h : b ≠ a) :
    Memory.lookup (Memory.write m a v) b = Memory.lookup m b := by
  induction m with
  | nil => simp [Memory.write, Memory.lookup, h]
  | cons c m ih =>
    obtain ⟨k, w⟩ := c
    simp only [Memory.write]
    split
    · simp [Memory.lookup, h]
    · split
      · subst_vars
        simp [Memory.lookup, h]
      · simp [Memory.lookup, ih]

/-- A write inside RAM, at or above the bound, keeps the addresses rising from it. -/
theorem Memory.risingFrom_write (m : Memory) (lo a : Nat) (v : Byte) (h : Memory.risingFrom lo m = true)
    (hlo : lo ≤ a) (ha : a < Config.ramSize) : Memory.risingFrom lo (Memory.write m a v) = true := by
  induction m generalizing lo with
  | nil => simp [Memory.write, Memory.risingFrom, hlo, ha]
  | cons c m ih =>
    obtain ⟨b, w⟩ := c
    simp only [Memory.risingFrom, Bool.and_eq_true, decide_eq_true_eq] at h
    obtain ⟨⟨hb, hbs⟩, hm⟩ := h
    simp only [Memory.write]
    split
    · simp only [Memory.risingFrom, Bool.and_eq_true, decide_eq_true_eq]
      exact ⟨⟨hlo, ha⟩, ⟨by omega, hbs⟩, hm⟩
    · split
      · subst_vars
        simp only [Memory.risingFrom, Bool.and_eq_true, decide_eq_true_eq]
        exact ⟨⟨hlo, ha⟩, hm⟩
      · simp only [Memory.risingFrom, Bool.and_eq_true, decide_eq_true_eq]
        exact ⟨⟨hb, hbs⟩, ih (b + 1) hm (by omega)⟩

theorem Memory.wf_write (m : Memory) (a : Nat) (v : Byte) (h : Memory.wf m = true) (ha : a < Config.ramSize) :
    Memory.wf (Memory.write m a v) = true :=
  Memory.risingFrom_write m 0 a v h (Nat.zero_le a) ha

/-- Reset memory is canonical. -/
theorem State.reset_ram_wf : Memory.wf State.reset.ram = true := rfl

theorem State.ramByte_writeRam_same (s : State) (off : Address) (v : Byte) :
    (s.writeRam off v).ramByte off = v := by
  simp [State.ramByte, Memory.lookup_write_same]

theorem State.ramByte_writeRam_other (s : State) (off b : Address) (v : Byte) (h : b ≠ off) :
    (s.writeRam off v).ramByte b = s.ramByte b := by
  have hn : b.toNat ≠ off.toNat := fun e => h (BitVec.eq_of_toNat_eq e)
  simp [State.ramByte, Memory.lookup_write_other _ _ _ _ hn]

end Sys2Proof.Machine
end

