-- ==== Sys2Proof/Laws/Ops.lean ====
section
/-! SUPPORT. One lemma per decode function and shared operation, and the inversion of `exec`: everything an
instruction can do. -/

namespace Sys2Proof.Machine

theorem decodeMemory_ram {a : Address} (h : a.toNat ≤ 0x9FFFF) : decodeMemory a = .ram :=
  if_pos ⟨Nat.zero_le _, h⟩

theorem decodeMemory_rom {a : Address} (h : 0xF8000 ≤ a.toNat) : decodeMemory a = .rom :=
  have hl := a.isLt
  (if_neg fun c => absurd (show a.toNat ≤ 0x9FFFF from c.2) (by omega)).trans
    (if_pos ⟨h, show a.toNat ≤ 0xFFFFF by omega⟩)

theorem decodeMemory_unmapped {a : Address} (h : 0xA0000 ≤ a.toNat) (h' : a.toNat ≤ 0xF7FFF) :
    decodeMemory a = .unmapped :=
  (if_neg fun c => absurd (show a.toNat ≤ 0x9FFFF from c.2) (by omega)).trans
    (if_neg fun c => absurd (show 0xF8000 ≤ a.toNat from c.1) (by omega))

/-- Every address falls in one of the three ranges of R60. -/
theorem address_cases (a : Address) :
    a.toNat ≤ 0x9FFFF ∨ (0xA0000 ≤ a.toNat ∧ a.toNat ≤ 0xF7FFF) ∨ 0xF8000 ≤ a.toNat := by omega

theorem decodeMemory_eq_ram_iff (a : Address) : decodeMemory a = .ram ↔ a.toNat ≤ 0x9FFFF := by
  rcases address_cases a with h | ⟨h, h'⟩ | h
  · simp [decodeMemory_ram h, h]
  · simp [decodeMemory_unmapped h h']; omega
  · simp [decodeMemory_rom h]; omega

theorem decodeMemory_eq_rom_iff (a : Address) : decodeMemory a = .rom ↔ 0xF8000 ≤ a.toNat := by
  rcases address_cases a with h | ⟨h, h'⟩ | h
  · simp [decodeMemory_ram h]; omega
  · simp [decodeMemory_unmapped h h']; omega
  · simp [decodeMemory_rom h, h]

theorem decodeMemory_eq_unmapped_iff (a : Address) :
    decodeMemory a = .unmapped ↔ 0xA0000 ≤ a.toNat ∧ a.toNat ≤ 0xF7FFF := by
  rcases address_cases a with h | ⟨h, h'⟩ | h
  · simp [decodeMemory_ram h]; omega
  · simp [decodeMemory_unmapped h h', h, h']
  · simp [decodeMemory_rom h]; omega

/-- The window a port lies in, by its range. -/
theorem decodeIo_eq_some_iff (p : Port) (d : RegPeripheral) :
    decodeIo p = some d ↔ (Config.window d).base ≤ p.toNat ∧ p.toNat < (Config.window d).base + 8 := by
  have key : decodeIo p = if 0x330 ≤ p.toNat ∧ p.toNat ≤ 0x337 then some .scsi
      else if 0x370 ≤ p.toNat ∧ p.toNat ≤ 0x377 then some .fdc
      else if 0x3F8 ≤ p.toNat ∧ p.toNat ≤ 0x3FF then some .uart else none := rfl
  have base : (Config.window d).base = match d with | .scsi => 0x330 | .fdc => 0x370 | .uart => 0x3F8 := by
    cases d <;> rfl
  rw [key, base]
  by_cases h1 : 0x330 ≤ p.toNat ∧ p.toNat ≤ 0x337
  · rw [if_pos h1]
    cases d <;> simp <;> omega
  · rw [if_neg h1]
    by_cases h2 : 0x370 ≤ p.toNat ∧ p.toNat ≤ 0x377
    · rw [if_pos h2]
      cases d <;> simp <;> omega
    · rw [if_neg h2]
      by_cases h3 : 0x3F8 ≤ p.toNat ∧ p.toNat ≤ 0x3FF
      · rw [if_pos h3]
        cases d <;> simp <;> omega
      · rw [if_neg h3]
        cases d <;> simp <;> omega

theorem ioSelect_ctrlPort : ioSelect Config.ctrlPort = .ctrl := if_pos rfl

theorem ioSelect_eq_ctrl_iff (p : Port) : ioSelect p = .ctrl ↔ p = Config.ctrlPort := by
  unfold ioSelect
  split_ifs with h
  · simp [h]
  · split <;> simp [h]

theorem ioSelect_eq_window_iff (p : Port) (d : RegPeripheral) :
    ioSelect p = .window d ↔ (Config.window d).base ≤ p.toNat ∧ p.toNat < (Config.window d).base + 8 := by
  rw [← decodeIo_eq_some_iff]
  unfold ioSelect
  split_ifs with h
  · subst h
    cases d <;> decide
  · split <;> simp_all

@[simp] theorem ramOffset_eq (a : Address) : ramOffset a = a := by simp [ramOffset, Config.ramBase]

theorem ramOffset_lt_ramSize {a : Address} (h : decodeMemory a = .ram) : (ramOffset a).toNat < Config.ramSize := by
  rw [decodeMemory_eq_ram_iff] at h
  rw [ramOffset_eq]
  simp only [Config.ramSize]
  omega

theorem memByte_ram (s : State) {a : Address} (h : decodeMemory a = .ram) : s.memByte a = s.ramByte a := by
  simp [State.memByte, h]

/-- A RAM write is read back at its address and nowhere else. -/
theorem memByte_writeRam (s : State) {a : Address} (v : Byte) (h : decodeMemory a = .ram) (b : Address) :
    (s.writeRam (ramOffset a) v).memByte b = if b = a then v else s.memByte b := by
  split
  · subst_vars
    simp [State.memByte, h, State.ramByte_writeRam_same]
  · rename_i hne
    cases hb : decodeMemory b <;>
      simp [State.memByte, hb, State.ramByte_writeRam_other s a b v hne]

/-- Everything an instruction can do: eight shapes of next state. -/
theorem exec_cases {i : Instr} {s t : State} (h : exec i s = .next t) :
    (∃ r sel c, t = s.observe r sel c) ∨
    (∃ a, t = s.answerLookup a) ∨
    (∃ sel c, t = s.peripheralRead sel c) ∨
    (∃ sel c, t = s.peripheralWrite sel c) ∨
    (∃ a v, decodeMemory a = .ram ∧ i = .memw a v ∧
      t = (s.writeRam (ramOffset a) v).observe none (some .ramSel) (some (.ramWrite (ramOffset a) v))) ∨
    (∃ v, (i = .cpw v ∨ i = .iow Config.ctrlPort v) ∧ t = s.controlWrite v) ∨
    (∃ b, i = .spkd b ∧ t = (s.recordData b).observe none none none) ∨
    (i = .reset ∧ t = s.machineReset.observe none none none) := by
  cases i with
  | memr a =>
    simp only [exec, execMemr] at h
    split at h <;> cases h <;> exact .inl ⟨_, _, _, rfl⟩
  | memw a v =>
    simp only [exec, execMemw] at h
    split at h <;> cases h
    · exact .inr (.inr (.inr (.inr (.inl ⟨a, v, ‹_›, rfl, rfl⟩))))
    · exact .inl ⟨_, _, _, rfl⟩
    · exact .inl ⟨_, _, _, rfl⟩
  | ior p =>
    simp only [exec, execIor] at h
    split at h <;> cases h
    · exact .inl ⟨_, _, _, rfl⟩
    · exact .inr (.inr (.inl ⟨_, _, rfl⟩))
    · exact .inl ⟨_, _, _, rfl⟩
  | iow p v =>
    simp only [exec, execIow] at h
    split at h <;> cases h
    · rename_i hp
      have hp' := (ioSelect_eq_ctrl_iff p).mp hp
      exact .inr (.inr (.inr (.inr (.inr (.inl ⟨v, .inr (by rw [hp']), rfl⟩)))))
    · exact .inr (.inr (.inr (.inl ⟨_, _, rfl⟩)))
    · exact .inl ⟨_, _, _, rfl⟩
  | dmar c => cases h; exact .inr (.inr (.inl ⟨_, _, rfl⟩))
  | dmaw c v => cases h; exact .inr (.inr (.inr (.inl ⟨_, _, rfl⟩)))
  | spkd b => cases h; exact .inr (.inr (.inr (.inr (.inr (.inr (.inl ⟨b, rfl, rfl⟩))))))
  | reset => cases h; exact .inr (.inr (.inr (.inr (.inr (.inr (.inr ⟨rfl, rfl⟩))))))
  | cpr => cases h; exact .inl ⟨_, _, _, rfl⟩
  | cpw v => cases h; exact .inr (.inr (.inr (.inr (.inr (.inl ⟨v, .inl rfl, rfl⟩)))))
  | memRam1 a => cases h; exact .inr (.inl ⟨_, rfl⟩)
  | memRam2 a => cases h; exact .inr (.inl ⟨_, rfl⟩)
  | memUnmapped3 a => cases h; exact .inr (.inl ⟨_, rfl⟩)
  | memUnmapped4 a => cases h; exact .inr (.inl ⟨_, rfl⟩)
  | memUnmapped5 a => cases h; exact .inr (.inl ⟨_, rfl⟩)
  | memUnmapped6 a => cases h; exact .inr (.inl ⟨_, rfl⟩)
  | memRom7 a => cases h; exact .inr (.inl ⟨_, rfl⟩)
  | ioCtrl => cases h; exact .inr (.inl ⟨_, rfl⟩)
  | ioScsi p => cases h; exact .inr (.inl ⟨_, rfl⟩)
  | ioFdc p => cases h; exact .inr (.inl ⟨_, rfl⟩)
  | ioUart p => cases h; exact .inr (.inl ⟨_, rfl⟩)
  | dmaCh0 => cases h; exact .inr (.inl ⟨_, rfl⟩)
  | dmaCh1 => cases h; exact .inr (.inl ⟨_, rfl⟩)
  | dmaCh2 => cases h; exact .inr (.inl ⟨_, rfl⟩)

/-- Everything a step can do. -/
theorem step_cases {s t : State} (h : step s = .next t) :
    (s.pending = [] ∧ t = s) ∨
    (∃ x rest i, s.pending = x :: rest ∧ decode x = .ok i ∧ exec i s.advance = .next t) ∨
    (∃ x rest, s.pending = x :: rest ∧ decode x = .error .portSelectsNothing ∧
      t = s.advance.answerLookup .unmapped) := by
  unfold step at h
  split at h
  · rename_i hp
    cases h
    exact .inl ⟨hp, rfl⟩
  · rename_i x rest hp
    split at h
    · rename_i i hd
      exact .inr (.inl ⟨x, rest, i, hp, hd, h⟩)
    · rename_i r hd
      unfold undecoded at h
      split at h
      · cases h
        exact .inr (.inr ⟨x, rest, hp, hd, rfl⟩)
      · cases h

end Sys2Proof.Machine
end

