-- ==== Sys2Proof/Laws/Calls.lean ====
section
/-! SUPPORT. Which peripheral the newest record shows a call on, for each shared operation that records. -/

namespace Sys2Proof.Machine

variable (s : State) (p : Peripheral)

@[simp] theorem State.lastCallIsOn_observe (r : Option Byte) (sel : Option Select) (c : Option Call) :
    (s.observe r sel c).lastCallIsOn p ↔ c.bind Call.peripheral? = some p := by
  constructor
  · rintro ⟨o, x, ho, hc, hp⟩
    cases ho
    rw [show c = some x from hc]
    exact hp
  · intro h
    obtain ⟨x, rfl, hx⟩ := Option.bind_eq_some_iff.mp h
    exact ⟨_, x, rfl, rfl, hx⟩

@[simp] theorem State.lastCallIsOn_answerLookup (a : Selection) : ¬ (s.answerLookup a).lastCallIsOn p :=
  fun ⟨_, _, ho, _, _⟩ => nomatch ho

@[simp] theorem State.lastCallIsOn_peripheralRead (sel : Select) (c : Call) :
    (s.peripheralRead sel c).lastCallIsOn p ↔ c.peripheral? = some p :=
  State.lastCallIsOn_observe _ p _ _ (some c)

@[simp] theorem State.lastCallIsOn_peripheralWrite (sel : Select) (c : Call) :
    (s.peripheralWrite sel c).lastCallIsOn p ↔ c.peripheral? = some p :=
  State.lastCallIsOn_observe _ p _ _ (some c)

@[simp] theorem State.lastCallIsOn_controlRead : ¬ s.controlRead.lastCallIsOn p :=
  fun h => nomatch (State.lastCallIsOn_observe _ p _ _ none).mp h

@[simp] theorem State.lastCallIsOn_controlWrite (v : Byte) : ¬ (s.controlWrite v).lastCallIsOn p :=
  fun h => nomatch (State.lastCallIsOn_observe _ p _ _ none).mp h

end Sys2Proof.Machine
end

