-- ==== Sys2Proof/Laws/Control.lean ====
section
/-! SUPPORT. The control port: the transition table row by row, and its bits at power-on and after reset. -/

namespace Sys2Proof.Machine

@[simp] theorem speakerAfterWrite_stayOff (d o : Bool) : speakerAfterWrite false false d o = o := rfl
@[simp] theorem speakerAfterWrite_enable (d o : Bool) : speakerAfterWrite false true d o = d := rfl
@[simp] theorem speakerAfterWrite_disable (d o : Bool) : speakerAfterWrite true false d o = false := rfl
@[simp] theorem speakerAfterWrite_stayOn (d o : Bool) : speakerAfterWrite true true d o = o := rfl
@[simp] theorem speakerAfterData_off (b o : Bool) : speakerAfterData false b o = o := rfl
@[simp] theorem speakerAfterData_on (b o : Bool) : speakerAfterData true b o = b := rfl

/-- The two fields at the bit numbers of 00_scope.md R5. -/
theorem gateBit_eq (v : Byte) : gateBit v = v.getLsbD 0 := rfl
theorem enableBit_eq (v : Byte) : enableBit v = v.getLsbD 1 := rfl

@[simp] theorem gateBit_latchPowerOn : gateBit Config.latchPowerOn = true := by decide
@[simp] theorem enableBit_latchPowerOn : enableBit Config.latchPowerOn = true := by decide
@[simp] theorem gateBit_latchReset : gateBit Config.latchReset = false := by decide
@[simp] theorem enableBit_latchReset : enableBit Config.latchReset = false := by decide

@[simp] theorem State.powerOn_gate : State.powerOn.gate = true := gateBit_latchPowerOn
@[simp] theorem State.powerOn_enable : State.powerOn.enable = true := enableBit_latchPowerOn
@[simp] theorem State.reset_gate : State.reset.gate = false := gateBit_latchReset
@[simp] theorem State.reset_enable : State.reset.enable = false := enableBit_latchReset

/-- Nothing of the output depends on bits other than bit 1 of the value written (42_control_port.md R189). -/
theorem State.writeLatch_out_congr (s : State) {v w : Byte} (h : v.getLsbD 1 = w.getLsbD 1) :
    (s.writeLatch v).out = (s.writeLatch w).out := by
  simp only [State.writeLatch_out, enableBit_eq, h]

end Sys2Proof.Machine
end

