-- ==== Sys2Proof/Laws/Decode.lean ====
section
/-! SUPPORT. The fields of a trace word built by the encoder, and a mask over high bits as a comparison. -/

namespace Sys2Proof

section Fields

variable (k : BitVec 4) (a : Address) (d : Byte)

@[simp] theorem kind_makeTraceWord : TraceWord.kind (makeTraceWord k a d) = k := by
  ext i hi
  simp only [TraceWord.kind, makeTraceWord, BitVec.getElem_extractLsb', BitVec.getLsbD_append]
  grind

@[simp] theorem addr_makeTraceWord : TraceWord.addr (makeTraceWord k a d) = a := by
  ext i hi
  simp only [TraceWord.addr, makeTraceWord, BitVec.getElem_extractLsb', BitVec.getLsbD_append]
  grind

@[simp] theorem data_makeTraceWord : TraceWord.data (makeTraceWord k a d) = d := by
  ext i hi
  simp only [TraceWord.data, makeTraceWord, BitVec.getElem_extractLsb', BitVec.getLsbD_append]
  grind

/-- A trace word is its three fields. -/
theorem makeTraceWord_fields (w : TraceWord) :
    makeTraceWord (TraceWord.kind w) (TraceWord.addr w) (TraceWord.data w) = w := by
  ext i hi
  simp only [makeTraceWord, TraceWord.kind, TraceWord.addr, TraceWord.data]
  simp only [← BitVec.getLsbD_eq_getElem, BitVec.getLsbD_append, BitVec.getLsbD_extractLsb']
  grind

/-- A mask acts on each field. -/
theorem makeTraceWord_and (k' : BitVec 4) (a' : Address) (d' : Byte) :
    makeTraceWord k a d &&& makeTraceWord k' a' d' = makeTraceWord (k &&& k') (a &&& a') (d &&& d') := by
  ext i hi
  simp only [makeTraceWord, BitVec.getElem_and]
  simp only [← BitVec.getLsbD_eq_getElem, BitVec.getLsbD_append, BitVec.getLsbD_and]
  grind

theorem makeTraceWord_inj (k' : BitVec 4) (a' : Address) (d' : Byte) :
    makeTraceWord k a d = makeTraceWord k' a' d' ↔ k = k' ∧ a = a' ∧ d = d' := by
  refine ⟨fun h => ⟨?_, ?_, ?_⟩, fun h => by rw [h.1, h.2.1, h.2.2]⟩
  · simpa using congrArg TraceWord.kind h
  · simpa using congrArg TraceWord.addr h
  · simpa using congrArg TraceWord.data h

/-- The port, channel and must-be-zero fields are parts of the addr field. -/
theorem port_eq (w : TraceWord) : TraceWord.port w = (TraceWord.addr w).extractLsb' 0 16 := by
  ext i hi
  simp only [TraceWord.port, TraceWord.addr, BitVec.getElem_extractLsb', BitVec.getLsbD_extractLsb']
  grind

theorem portHigh_eq (w : TraceWord) : TraceWord.portHigh w = (TraceWord.addr w).extractLsb' 16 4 := by
  ext i hi
  simp only [TraceWord.portHigh, TraceWord.addr, BitVec.getElem_extractLsb', BitVec.getLsbD_extractLsb']
  grind

theorem channel_eq (w : TraceWord) : TraceWord.channel w = (TraceWord.addr w).extractLsb' 0 2 := by
  ext i hi
  simp only [TraceWord.channel, TraceWord.addr, BitVec.getElem_extractLsb', BitVec.getLsbD_extractLsb']
  grind

theorem channelHigh_eq (w : TraceWord) : TraceWord.channelHigh w = (TraceWord.addr w).extractLsb' 2 18 := by
  ext i hi
  simp only [TraceWord.channelHigh, TraceWord.addr, BitVec.getElem_extractLsb', BitVec.getLsbD_extractLsb']
  grind

theorem dataHigh_eq (w : TraceWord) : TraceWord.dataHigh w = (TraceWord.data w).extractLsb' 1 7 := by
  ext i hi
  simp only [TraceWord.dataHigh, TraceWord.data, BitVec.getElem_extractLsb', BitVec.getLsbD_extractLsb']
  grind

theorem bit_eq (w : TraceWord) : TraceWord.bit w = (TraceWord.data w).getLsbD 0 := by
  simp [TraceWord.bit, TraceWord.data]

@[simp] theorem port_makeTraceWord (p : Port) : TraceWord.port (makeTraceWord k (addrOfPort p) d) = p := by
  rw [port_eq, addr_makeTraceWord]
  ext i hi
  simp only [addrOfPort, BitVec.getElem_extractLsb', BitVec.getLsbD_append]
  grind

@[simp] theorem portHigh_makeTraceWord (p : Port) : TraceWord.portHigh (makeTraceWord k (addrOfPort p) d) = 0 := by
  rw [portHigh_eq, addr_makeTraceWord]
  ext i hi
  have h16 : ¬ 16 + i < 16 := by omega
  simp only [addrOfPort, BitVec.getElem_extractLsb', BitVec.getLsbD_append]
  simp [h16]

@[simp] theorem channel_makeTraceWord (c : Channel) :
    TraceWord.channel (makeTraceWord k (addrOfChannel c) d) = c.toBits := by
  rw [channel_eq, addr_makeTraceWord]
  cases c <;> decide

@[simp] theorem channelHigh_makeTraceWord (c : Channel) :
    TraceWord.channelHigh (makeTraceWord k (addrOfChannel c) d) = 0 := by
  rw [channelHigh_eq, addr_makeTraceWord]
  cases c <;> decide

end Fields

theorem Channel.length_all : Channel.all.length = Config.nDma := rfl

theorem Channel.mem_all (c : Channel) : c ∈ Channel.all := by cases c <;> decide

/-- The four values of a channel field: three channels, and 3, which is none. -/
theorem Channel.ofBits_cases (b : BitVec 2) : (b = 3 ∧ Channel.ofBits b = none) ∨
    ∃ c : Channel, b = c.toBits ∧ Channel.ofBits b = some c := by
  have h : b = 0 ∨ b = 1 ∨ b = 2 ∨ b = 3 := by revert b; decide
  rcases h with rfl | rfl | rfl | rfl
  · exact .inr ⟨.ch0, rfl, rfl⟩
  · exact .inr ⟨.ch1, rfl, rfl⟩
  · exact .inr ⟨.ch2, rfl, rfl⟩
  · exact .inl ⟨rfl, rfl⟩

@[simp] theorem Channel.ofBits_toBits (c : Channel) : Channel.ofBits c.toBits = some c := by
  cases c <;> decide

@[simp] theorem decodeChannel_makeTraceWord (k : BitVec 4) (c : Channel) (d : Byte) :
    decodeChannel (makeTraceWord k (addrOfChannel c) d) = .ok c := by
  simp [decodeChannel]

/-- A mask whose low `s` bits are clear keeps the high part only. -/
theorem and_shiftLeft_eq (n k s : Nat) : n &&& (k <<< s) = ((n >>> s) &&& k) <<< s := by
  apply Nat.eq_of_testBit_eq
  intro i
  simp only [Nat.testBit_and, Nat.testBit_shiftLeft, Nat.testBit_shiftRight]
  by_cases h : s ≤ i
  · simp [h, Nat.add_sub_cancel' h]
  · simp [h]

/-- An address masked over its upper five bits. -/
theorem address_and (a : Address) (k : Nat) (h : k < 32) :
    (a &&& BitVec.ofNat 20 (k <<< 15)).toNat = ((a.toNat / 32768) &&& k) * 32768 := by
  have hk : k <<< 15 < 2 ^ 20 := by rw [Nat.shiftLeft_eq]; omega
  rw [BitVec.toNat_and, BitVec.toNat_ofNat, Nat.mod_eq_of_lt hk, and_shiftLeft_eq, Nat.shiftLeft_eq,
    Nat.shiftRight_eq_div_pow]

/-- A port masked over all but its low three bits. -/
theorem port_and (p : Port) : (p &&& 0xFFF8#16).toNat = p.toNat / 8 * 8 := by
  have h : (p &&& 0xFFF8#16).toNat = p.toNat &&& (0x1FFF <<< 3) := by rw [BitVec.toNat_and]; rfl
  have hp := p.isLt
  have h2 : p.toNat / 8 % 8192 = p.toNat / 8 := Nat.mod_eq_of_lt (by omega)
  rw [h, and_shiftLeft_eq, Nat.shiftLeft_eq, Nat.shiftRight_eq_div_pow,
    show (0x1FFF : Nat) = 2 ^ 13 - 1 from rfl, Nat.and_two_pow_sub_one_eq_mod]
  simpa using h2

theorem address_and_eq_iff (a mask : Address) (k : Nat) (h : k < 32) (hm : mask = BitVec.ofNat 20 (k <<< 15))
    (p : Address) : a &&& mask = p ↔ ((a.toNat / 32768) &&& k) * 32768 = p.toNat := by
  subst hm
  rw [← address_and a k h]
  exact ⟨fun e => by rw [e], fun e => BitVec.eq_of_toNat_eq e⟩

theorem port_and_eq_iff (p q : Port) : p &&& 0xFFF8#16 = q ↔ p.toNat / 8 * 8 = q.toNat := by
  rw [← port_and p]
  exact ⟨fun e => by rw [e], fun e => BitVec.eq_of_toNat_eq e⟩

/-- The memory rows by the ranges of R92. -/
theorem firstRow_memRows (a : Address) : firstRow memRows a = some (
    if a.toNat ≤ 0x7FFFF then .memRam1 a
    else if a.toNat ≤ 0x9FFFF then .memRam2 a
    else if a.toNat ≤ 0xBFFFF then .memUnmapped3 a
    else if a.toNat ≤ 0xDFFFF then .memUnmapped4 a
    else if a.toNat ≤ 0xEFFFF then .memUnmapped5 a
    else if a.toNat ≤ 0xF7FFF then .memUnmapped6 a
    else .memRom7 a) := by
  have hl := a.isLt
  simp only [memRows, firstRow]
  simp only [address_and_eq_iff a 0x80000#20 16 (by omega) rfl, address_and_eq_iff a 0xE0000#20 28 (by omega) rfl,
    address_and_eq_iff a 0xF0000#20 30 (by omega) rfl, address_and_eq_iff a 0xF8000#20 31 (by omega) rfl]
  obtain ⟨q, hq⟩ : ∃ q, q = a.toNat / 32768 := ⟨_, rfl⟩
  rw [← hq]
  have h32 : q < 32 := by omega
  have hlo : q * 32768 ≤ a.toNat ∧ a.toNat < q * 32768 + 32768 := by omega
  interval_cases q <;> simp <;> (repeat' split) <;> first | rfl | omega

/-- The port rows by the ranges of R93. -/
theorem firstRow_portRows (p : Port) : firstRow portRows p =
    if p.toNat = 0x0061 then some .ioCtrl
    else if 0x0330 ≤ p.toNat ∧ p.toNat ≤ 0x0337 then some (.ioScsi p)
    else if 0x0370 ≤ p.toNat ∧ p.toNat ≤ 0x0377 then some (.ioFdc p)
    else if 0x03F8 ≤ p.toNat ∧ p.toNat ≤ 0x03FF then some (.ioUart p)
    else none := by
  have h1 : p &&& 0xFFFF#16 = 0x0061#16 ↔ p.toNat = 0x0061 := by
    rw [show p &&& 0xFFFF#16 = p by rw [show (0xFFFF#16) = BitVec.allOnes 16 by decide, BitVec.and_allOnes]]
    exact ⟨fun e => by rw [e]; rfl, fun e => BitVec.eq_of_toNat_eq e⟩
  simp only [portRows, firstRow, h1, port_and_eq_iff, BitVec.toNat_ofNat]
  exact if_congr Iff.rfl rfl (if_congr (by omega) rfl (if_congr (by omega) rfl (if_congr (by omega) rfl rfl)))

end Sys2Proof
end

