-- ==== Sys2Proof/Laws/PerInstr.lean ====
section
/-! SUPPORT. The family TableRow: what is presented for a well-formed instruction matches the match and mask of its
row of spec/opcode_table.json. -/

namespace Sys2Proof.Laws.TableRow

/-- The match and mask columns of the opcode table. -/
def row : Instr → Nat × Nat
  | .memr _ => (0x00000000, 0xF00000FF)
  | .memw _ _ => (0x10000000, 0xF0000000)
  | .ior _ => (0x20000000, 0xFF0000FF)
  | .iow _ _ => (0x30000000, 0xFF000000)
  | .dmar _ => (0x40000000, 0xFFFFFCFF)
  | .dmaw _ _ => (0x50000000, 0xFFFFFC00)
  | .spkd _ => (0x60000000, 0xFFFFFFFE)
  | .reset => (0x70000000, 0xFFFFFFFF)
  | .cpr => (0x20006100, 0xFFFFFFFF)
  | .cpw _ => (0x30006100, 0xFFFFFF00)
  | .memRam1 _ => (0x00000, 0x80000)
  | .memRam2 _ => (0x80000, 0xE0000)
  | .memUnmapped3 _ => (0xA0000, 0xE0000)
  | .memUnmapped4 _ => (0xC0000, 0xE0000)
  | .memUnmapped5 _ => (0xE0000, 0xF0000)
  | .memUnmapped6 _ => (0xF0000, 0xF8000)
  | .memRom7 _ => (0xF8000, 0xF8000)
  | .ioCtrl => (0x0061, 0xFFFF)
  | .ioScsi _ => (0x0330, 0xFFF8)
  | .ioFdc _ => (0x0370, 0xFFF8)
  | .ioUart _ => (0x03F8, 0xFFF8)
  | .dmaCh0 => (0, 3)
  | .dmaCh1 => (1, 3)
  | .dmaCh2 => (2, 3)

/-- `(x & mask) = match`. -/
def fits (r : Nat × Nat) : Presented → Bool
  | .traceWord w => w &&& BitVec.ofNat 32 r.2 == BitVec.ofNat 32 r.1
  | .memAddress a => a &&& BitVec.ofNat 20 r.2 == BitVec.ofNat 20 r.1
  | .ioPort p => p &&& BitVec.ofNat 16 r.2 == BitVec.ofNat 16 r.1
  | .dmaChannel c => c &&& BitVec.ofNat 2 r.2 == BitVec.ofNat 2 r.1

/-- The family's statement. -/
def Statement (i : Instr) : Prop := i.wf = true → fits (row i) (encode i) = true

/-- A trace word matches a row when each of its fields does. -/
theorem matches_trace {k k' km : BitVec 4} {a a' am : Address} {d d' dm : Byte} {m p : Nat}
    (hm : BitVec.ofNat 32 m = makeTraceWord km am dm) (hp : BitVec.ofNat 32 p = makeTraceWord k' a' d')
    (hk : k &&& km = k') (ha : a &&& am = a') (hd : d &&& dm = d') :
    fits (p, m) (.traceWord (makeTraceWord k a d)) = true := by
  simp only [fits, hm, hp, makeTraceWord_and, hk, ha, hd, beq_self_eq_true]

/-- An address inside the range of a row matches it: the mask keeps upper bits only. -/
theorem matches_address {a : Address} {lo hi k q : Nat} (hk : k < 32) (hq : q < 32)
    (h : Instr.inRange lo hi a.toNat = true)
    (hr : ∀ n < 32, lo / 32768 ≤ n → n ≤ hi / 32768 → n &&& k = q) :
    fits (q <<< 15, k <<< 15) (.memAddress a) = true := by
  simp only [Instr.inRange, Bool.and_eq_true, decide_eq_true_eq] at h
  have hl := a.isLt
  refine beq_iff_eq.mpr ((address_and_eq_iff a _ k hk rfl _).mpr ?_)
  rw [hr _ (by omega) (Nat.div_le_div_right h.1) (Nat.div_le_div_right h.2), BitVec.toNat_ofNat, Nat.shiftLeft_eq,
    Nat.mod_eq_of_lt (by omega)]

/-- A port inside the range of a window matches its row. -/
theorem matches_port {p : Port} {lo : Nat} (hl : lo % 8 = 0) (h : Instr.inRange lo (lo + 7) p.toNat = true) :
    fits (lo, 0xFFF8) (.ioPort p) = true := by
  simp only [Instr.inRange, Bool.and_eq_true, decide_eq_true_eq] at h
  have hp := p.isLt
  refine beq_iff_eq.mpr ((port_and_eq_iff p _).mpr ?_)
  rw [BitVec.toNat_ofNat]
  omega

/-- A port's addr field has four zeros above it. -/
theorem addrOfPort_high (p : Port) : addrOfPort p &&& 0xF0000 = 0 := by
  apply BitVec.eq_of_toNat_eq
  have h : (addrOfPort p).toNat = p.toNat := by
    have h0 : (0#4 : BitVec 4).toNat = 0 := rfl
    rw [addrOfPort, BitVec.toNat_append, h0]
    simp
  have hp := p.isLt
  rw [BitVec.toNat_and, h, show (0xF0000 : BitVec 20).toNat = 15 <<< 16 from rfl, and_shiftLeft_eq,
    Nat.shiftRight_eq_div_pow, Nat.div_eq_of_lt hp]
  rfl

theorem memr (a : Address) : Statement (.memr a) := fun _ =>
  matches_trace (km := 0xF) (am := 0) (dm := 0xFF) (k' := 0) (a' := 0) (d' := 0) (by decide) (by decide) (by decide)
    (by simp) (by decide)

theorem memw (a : Address) (v : Byte) : Statement (.memw a v) := fun _ =>
  matches_trace (km := 0xF) (am := 0) (dm := 0) (k' := 1) (a' := 0) (d' := 0) (by decide) (by decide) (by decide)
    (by simp) (by simp)

theorem ior (p : Port) : Statement (.ior p) := fun _ =>
  matches_trace (km := 0xF) (am := 0xF0000) (dm := 0xFF) (k' := 2) (a' := 0) (d' := 0) (by decide) (by decide)
    (by decide) (addrOfPort_high p) (by decide)

theorem iow (p : Port) (v : Byte) : Statement (.iow p v) := fun _ =>
  matches_trace (km := 0xF) (am := 0xF0000) (dm := 0) (k' := 3) (a' := 0) (d' := 0) (by decide) (by decide)
    (by decide) (addrOfPort_high p) (by simp)

theorem dmar (c : Channel) : Statement (.dmar c) := by cases c <;> intro _ <;> decide

theorem dmaw (c : Channel) (v : Byte) : Statement (.dmaw c v) := fun _ =>
  matches_trace (km := 0xF) (am := 0xFFFFC) (dm := 0) (k' := 5) (a' := 0) (d' := 0) (by decide) (by decide)
    (by decide) (by cases c <;> decide) (by simp)

theorem spkd (b : Bool) : Statement (.spkd b) := by cases b <;> intro _ <;> decide

theorem reset : Statement .reset := fun _ => by decide

theorem cpr : Statement .cpr := fun _ => by decide

theorem cpw (v : Byte) : Statement (.cpw v) := fun _ =>
  matches_trace (km := 0xF) (am := 0xFFFFF) (dm := 0) (k' := 3) (a' := 0x00061) (d' := 0) (by decide) (by decide)
    (by decide) (by decide) (by simp)

theorem memRam1 (a : Address) : Statement (.memRam1 a) := fun h =>
  matches_address (k := 16) (q := 0) (by decide) (by decide) h (by decide)

theorem memRam2 (a : Address) : Statement (.memRam2 a) := fun h =>
  matches_address (k := 28) (q := 16) (by decide) (by decide) h (by decide)

theorem memUnmapped3 (a : Address) : Statement (.memUnmapped3 a) := fun h =>
  matches_address (k := 28) (q := 20) (by decide) (by decide) h (by decide)

theorem memUnmapped4 (a : Address) : Statement (.memUnmapped4 a) := fun h =>
  matches_address (k := 28) (q := 24) (by decide) (by decide) h (by decide)

theorem memUnmapped5 (a : Address) : Statement (.memUnmapped5 a) := fun h =>
  matches_address (k := 30) (q := 28) (by decide) (by decide) h (by decide)

theorem memUnmapped6 (a : Address) : Statement (.memUnmapped6 a) := fun h =>
  matches_address (k := 31) (q := 30) (by decide) (by decide) h (by decide)

theorem memRom7 (a : Address) : Statement (.memRom7 a) := fun h =>
  matches_address (k := 31) (q := 31) (by decide) (by decide) h (by decide)

theorem ioCtrl : Statement .ioCtrl := fun _ => by decide

theorem ioScsi (p : Port) : Statement (.ioScsi p) := fun h => matches_port (by decide) h

theorem ioFdc (p : Port) : Statement (.ioFdc p) := fun h => matches_port (by decide) h

theorem ioUart (p : Port) : Statement (.ioUart p) := fun h => matches_port (by decide) h

theorem dmaCh0 : Statement .dmaCh0 := fun _ => by decide

theorem dmaCh1 : Statement .dmaCh1 := fun _ => by decide

theorem dmaCh2 : Statement .dmaCh2 := fun _ => by decide

end Sys2Proof.Laws.TableRow
end

