-- ==== Sys2Proof/Laws/Step.lean ====
section
/-! SUPPORT. The step by what is pending, and runs of the machine one step at a time. -/

namespace Sys2Proof.Machine

theorem step_nil {s : State} (h : s.pending = []) : step s = .next s := by simp only [step, h, idle]

theorem step_cons {s : State} {x : Presented} {rest : List Presented} {i : Instr} (h : s.pending = x :: rest)
    (hd : decode x = .ok i) : step s = exec i s.advance := by simp only [step, h, hd]

theorem step_undecoded {s : State} {x : Presented} {rest : List Presented} {r : Reject} (h : s.pending = x :: rest)
    (hd : decode x = .error r) : step s = undecoded r s.advance := by simp only [step, h, hd]

theorem run_succ (M : Host.Core) {s t : M.State} (n : Nat) (h : M.step s = .next t) :
    M.run (n + 1) s = M.run n t := by
  rw [Host.Core.run, h]

theorem core_run_succ {s t : State} (n : Nat) (h : step s = .next t) :
    Host.Core.run core (n + 1) s = Host.Core.run core n t :=
  run_succ core n h

/-- No instruction reads or writes what is pending or the trace index. -/
theorem exec_pending_index {i : Instr} {s t : State} (h : exec i s = .next t) (p : List Presented) (n : Nat) :
    exec i { s with pending := p, index := n } = .next { t with pending := p, index := n } := by
  cases i with
  | memr a => simp only [exec, execMemr] at h ⊢; split at h <;> cases h <;> rfl
  | memw a v => simp only [exec, execMemw] at h ⊢; split at h <;> cases h <;> rfl
  | ior p => simp only [exec, execIor] at h ⊢; split at h <;> cases h <;> rfl
  | iow p v => simp only [exec, execIow] at h ⊢; split at h <;> cases h <;> rfl
  | dmar c => cases h; rfl
  | dmaw c v => cases h; rfl
  | spkd b => cases h; rfl
  | reset => cases h; rfl
  | cpr => cases h; rfl
  | cpw v => cases h; rfl
  | memRam1 a => cases h; rfl
  | memRam2 a => cases h; rfl
  | memUnmapped3 a => cases h; rfl
  | memUnmapped4 a => cases h; rfl
  | memUnmapped5 a => cases h; rfl
  | memUnmapped6 a => cases h; rfl
  | memRom7 a => cases h; rfl
  | ioCtrl => cases h; rfl
  | ioScsi p => cases h; rfl
  | ioFdc p => cases h; rfl
  | ioUart p => cases h; rfl
  | dmaCh0 => cases h; rfl
  | dmaCh1 => cases h; rfl
  | dmaCh2 => cases h; rfl

end Sys2Proof.Machine
end

