-- ==== Sys2Proof/Tests/Slice0.lean ====
section
/-! SUPPORT. The model's own tests: expected values are those of spec/95_test_vectors.md (the id stands before each)
or are written out from the tables of spec/30_encoding.md; then a witness for the hypotheses of each statement. -/

namespace Sys2Proof.Tests

open Sys2Proof Sys2Proof.Machine

/-- A state with a given (`L`, `D`, `O`), some RAM bytes and some peripheral answers. -/
def stateOf (l : Byte) (d o : Bool) (ram : Memory := []) (answers : List Byte := []) : State :=
  { State.reset with latch := l, data := d, out := o, ram := ram, answers := answers }

/-- The state after, if there is one. -/
def stateAfter : Host.Outcome State Fault Refusal → Option State
  | .next s => some s
  | .fault _ => none
  | .refused _ => none

/-- (`L`, `D`, `O`) after an instruction. -/
def tripleAfter (i : Instr) (s : State) : Option Saved := (stateAfter (exec i s)).map State.save

/-- The output record of an instruction. -/
def recordAfter (i : Instr) (s : State) : Option LogEntry := (stateAfter (exec i s)).bind fun t => t.log.head?

/-- Why a construction is refused. -/
def whyRefused : Host.Outcome State Fault Refusal → Option Refusal
  | .next _ => none
  | .fault _ => none
  | .refused r => some r

/-! ## Well-formedness: each range check refuses an ill-formed term -/

theorem test_wf_refuses_memRam1 : (Instr.memRam1 0x80000).wf = false := by decide
theorem test_wf_refuses_memRam2_below : (Instr.memRam2 0x7FFFF).wf = false := by decide
theorem test_wf_refuses_memRam2_above : (Instr.memRam2 0xA0000).wf = false := by decide
theorem test_wf_refuses_memUnmapped3_below : (Instr.memUnmapped3 0x9FFFF).wf = false := by decide
theorem test_wf_refuses_memUnmapped3_above : (Instr.memUnmapped3 0xC0000).wf = false := by decide
theorem test_wf_refuses_memUnmapped4_below : (Instr.memUnmapped4 0xBFFFF).wf = false := by decide
theorem test_wf_refuses_memUnmapped4_above : (Instr.memUnmapped4 0xE0000).wf = false := by decide
theorem test_wf_refuses_memUnmapped5_below : (Instr.memUnmapped5 0xDFFFF).wf = false := by decide
theorem test_wf_refuses_memUnmapped5_above : (Instr.memUnmapped5 0xF0000).wf = false := by decide
theorem test_wf_refuses_memUnmapped6_below : (Instr.memUnmapped6 0xEFFFF).wf = false := by decide
theorem test_wf_refuses_memUnmapped6_above : (Instr.memUnmapped6 0xF8000).wf = false := by decide
theorem test_wf_refuses_memRom7 : (Instr.memRom7 0xF7FFF).wf = false := by decide
theorem test_wf_refuses_ioScsi_below : (Instr.ioScsi 0x032F).wf = false := by decide
theorem test_wf_refuses_ioScsi_above : (Instr.ioScsi 0x0338).wf = false := by decide
theorem test_wf_refuses_ioFdc_below : (Instr.ioFdc 0x036F).wf = false := by decide
theorem test_wf_refuses_ioFdc_above : (Instr.ioFdc 0x0378).wf = false := by decide
theorem test_wf_refuses_ioUart_below : (Instr.ioUart 0x03F7).wf = false := by decide
theorem test_wf_refuses_ioUart_above : (Instr.ioUart 0x0400).wf = false := by decide

/-! ## Decoding: for every constructor a word written out from the spec's encoding -/

/-- T3: kind 0, address 0x9FFFF, data 0. -/
theorem test_decode_memr : decode (.traceWord 0b0000_1001_1111_1111_1111_1111_00000000) = .ok (.memr 0x9FFFF) := by
  decide
/-- T5: kind 1, address 0x12345, data 0xAB. -/
theorem test_decode_memw : decode (.traceWord 0b0001_0001_0010_0011_0100_0101_10101011) = .ok (.memw 0x12345 0xAB) := by
  decide
/-- T9: kind 2, four zeros, port 0x1061, data 0: the upper port bits belong to the port. -/
theorem test_decode_ior : decode (.traceWord 0b0010_0000_0001_0000_0110_0001_00000000) = .ok (.ior 0x1061) := by decide
/-- T12: kind 3, four zeros, port 0x0372, data 0x1C. -/
theorem test_decode_iow : decode (.traceWord 0b0011_0000_0000_0011_0111_0010_00011100) = .ok (.iow 0x0372 0x1C) := by
  decide
/-- T16: kind 4, channel 1. -/
theorem test_decode_dmar : decode (.traceWord 0x40000100) = .ok (.dmar .ch1) := by decide
/-- T21: kind 5, channel 2, data 0x5A. -/
theorem test_decode_dmaw : decode (.traceWord 0x5000025A) = .ok (.dmaw .ch2 0x5A) := by decide
/-- T25, T26. -/
theorem test_decode_spkd : decode (.traceWord 0x60000000) = .ok (.spkd false) ∧
    decode (.traceWord 0x60000001) = .ok (.spkd true) := by decide
/-- T29. -/
theorem test_decode_reset : decode (.traceWord 0x70000000) = .ok .reset := by decide
/-- T7. -/
theorem test_decode_cpr : decode (.traceWord 0x20006100) = .ok .cpr := by decide
/-- T11. -/
theorem test_decode_cpw : decode (.traceWord 0x30006102) = .ok (.cpw 0x02) := by decide
/-- M5. -/
theorem test_decode_memRam1 : decode (.memAddress 0x7FFFF) = .ok (.memRam1 0x7FFFF) := by decide
/-- M6, M8. -/
theorem test_decode_memRam2 : decode (.memAddress 0x80000) = .ok (.memRam2 0x80000) ∧
    decode (.memAddress 0x9FFFF) = .ok (.memRam2 0x9FFFF) := by decide
/-- M9, M11. -/
theorem test_decode_memUnmapped3 : decode (.memAddress 0xA0000) = .ok (.memUnmapped3 0xA0000) ∧
    decode (.memAddress 0xBFFFF) = .ok (.memUnmapped3 0xBFFFF) := by decide
/-- M12, M13. -/
theorem test_decode_memUnmapped4 : decode (.memAddress 0xC0000) = .ok (.memUnmapped4 0xC0000) ∧
    decode (.memAddress 0xDFFFF) = .ok (.memUnmapped4 0xDFFFF) := by decide
/-- M14, M15. -/
theorem test_decode_memUnmapped5 : decode (.memAddress 0xE0000) = .ok (.memUnmapped5 0xE0000) ∧
    decode (.memAddress 0xEFFFF) = .ok (.memUnmapped5 0xEFFFF) := by decide
/-- M16, M17. -/
theorem test_decode_memUnmapped6 : decode (.memAddress 0xF0000) = .ok (.memUnmapped6 0xF0000) ∧
    decode (.memAddress 0xF7FFF) = .ok (.memUnmapped6 0xF7FFF) := by decide
/-- M18, M22. -/
theorem test_decode_memRom7 : decode (.memAddress 0xF8000) = .ok (.memRom7 0xF8000) ∧
    decode (.memAddress 0xFFFFF) = .ok (.memRom7 0xFFFFF) := by decide
/-- I3, I23: sixteen bits are compared. -/
theorem test_decode_ioCtrl : decode (.ioPort 0x0061) = .ok .ioCtrl ∧
    decode (.ioPort 0x8061) = .error .portSelectsNothing := by decide
/-- I8, I9. -/
theorem test_decode_ioScsi : decode (.ioPort 0x0337) = .ok (.ioScsi 0x0337) ∧
    decode (.ioPort 0x0338) = .error .portSelectsNothing := by decide
/-- I10, I12. -/
theorem test_decode_ioFdc : decode (.ioPort 0x036F) = .error .portSelectsNothing ∧
    decode (.ioPort 0x0372) = .ok (.ioFdc 0x0372) := by decide
/-- I15, I18. -/
theorem test_decode_ioUart : decode (.ioPort 0x03F7) = .error .portSelectsNothing ∧
    decode (.ioPort 0x03FF) = .ok (.ioUart 0x03FF) := by decide
/-- 30_encoding.md R94. -/
theorem test_decode_channels : decode (.dmaChannel 0b00) = .ok .dmaCh0 ∧ decode (.dmaChannel 0b01) = .ok .dmaCh1 ∧
    decode (.dmaChannel 0b10) = .ok .dmaCh2 ∧ decode (.dmaChannel 0b11) = .error .channelThree := by decide

/-- T4, T10, T20: the data field. -/
theorem test_decode_refuses_data : decode (.traceWord 0x00000001) = .error .dataNotZero ∧
    decode (.traceWord 0x20006101) = .error .dataNotZero ∧
    decode (.traceWord 0x40000001) = .error .dataNotZero := by decide
/-- T13, T14: the upper four address bits of a port. -/
theorem test_decode_refuses_port_high : decode (.traceWord 0x3100611C) = .error .portHighNotZero ∧
    decode (.traceWord 0x3FFFFFFF) = .error .portHighNotZero := by decide
/-- T18, T19, T22, T24: the channel. -/
theorem test_decode_refuses_channel : decode (.traceWord 0x40000300) = .error .channelThree ∧
    decode (.traceWord 0x40000400) = .error .channelHighNotZero ∧
    decode (.traceWord 0x500003FF) = .error .channelThree ∧
    decode (.traceWord 0x50010000) = .error .channelHighNotZero := by decide
/-- T27, T28, T30, T31: speaker data and reset. -/
theorem test_decode_refuses_lines : decode (.traceWord 0x60000002) = .error .spkdDataHighNotZero ∧
    decode (.traceWord 0x60000101) = .error .spkdAddrNotZero ∧
    decode (.traceWord 0x70000001) = .error .resetFieldsNotZero ∧
    decode (.traceWord 0x70006100) = .error .resetFieldsNotZero := by decide
/-- T32, T34: reserved kinds. -/
theorem test_decode_refuses_kinds : decode (.traceWord 0x80000000) = .error (.reservedKind 0x8) ∧
    decode (.traceWord 0xFFFFFFFF) = .error (.reservedKind 0xF) := by decide

/-- One row of each format as the opcode table numbers its bits, in whole bytes. -/
theorem test_decode_table_words : decodeTableWord 32 0x112345AB = some (.memw 0x12345 0xAB) ∧
    decodeTableWord 24 0xF8000 = some (.memRom7 0xF8000) ∧ decodeTableWord 16 0x03F8 = some (.ioUart 0x03F8) ∧
    decodeTableWord 8 2 = some .dmaCh2 := by decide

/-- The words of PRG1. -/
theorem test_encode_program : [Instr.reset, .cpw 0x02, .spkd true, .cpw 0x00, .spkd true].map encode =
    [.traceWord 0x70000000, .traceWord 0x30006102, .traceWord 0x60000001, .traceWord 0x30006100,
     .traceWord 0x60000001] := by decide

/-! ## One step each -/

/-- MW2: the last RAM byte. -/
theorem test_memr_last_ram_byte : recordAfter (.memr 0x9FFFF) (stateOf 0 false false [(0x9FFFF, 0xCD)]) =
    some (.operation ⟨some 0xCD, some .ramSel, some (.ramRead 0x9FFFF), false, false, false⟩) := by decide
/-- M20: the offset into ROM. -/
theorem test_memr_rom_offset : recordAfter (.memr 0xFFFF0) (stateOf 0x03 false false) =
    some (.operation ⟨some (Config.romImage 0x7FF0), some .romSel, some (.romRead 0x7FF0), true, true, false⟩) := rfl
/-- MW1. -/
theorem test_memw_ram : (stateAfter (exec (.memw 0x00000 0x5A) (stateOf 0 false false))).map (·.memByte 0x00000) =
    some 0x5A := by decide
/-- MW10: 0xA0000 is no RAM. -/
theorem test_memw_unmapped : (stateAfter (exec (.memw 0xA0000 0x22) (stateOf 0 false false))).map (·.ram) =
    some [] := by decide
/-- IW6. -/
theorem test_ior_uart : recordAfter (.ior 0x03FD) (stateOf 0 false false [] [0x60]) =
    some (.operation ⟨some 0x60, some .uartSel, some (.regRead .uart 5), false, false, false⟩) := by decide
/-- I20: no alias of the control port. -/
theorem test_ior_no_alias : recordAfter (.ior 0x0461) (stateOf 0xFF false false) =
    some (.operation ⟨some Config.openBusIo, none, none, true, true, false⟩) := rfl
/-- IW3. -/
theorem test_iow_fdc : recordAfter (.iow 0x0372 0x1C) (stateOf 0 false false) =
    some (.operation ⟨none, some .fdcSel, some (.regWrite .fdc 2 0x1C), false, false, false⟩) := by decide
/-- IW10: no alias of the control port. -/
theorem test_iow_no_alias : tripleAfter (.iow 0x8061 0x02) (stateOf 0x00 true false) = some ⟨0x00, true, false⟩ := by
  decide
/-- X2. -/
theorem test_dmar_fdc : recordAfter (.dmar .ch1) (stateOf 0 false false [] [0xE5]) =
    some (.operation ⟨some 0xE5, some .dackFdc, some (.dmaRead .fdc), false, false, false⟩) := by decide
/-- X6. -/
theorem test_dmaw_scsi : recordAfter (.dmaw .ch2 0xFF) (stateOf 0 false false) =
    some (.operation ⟨none, some .dackScsi, some (.dmaWrite .scsi 0xFF), false, false, false⟩) := by decide
/-- W6: enable with `D = 1`, upper bits set. -/
theorem test_cpw_enable : tripleAfter (.cpw 0xFE) (stateOf 0x00 true false) = some ⟨0xFE, true, true⟩ := by decide
/-- P6: disable. -/
theorem test_cpw_disable : tripleAfter (.cpw 0x01) (stateOf 0x02 false true) = some ⟨0x01, false, false⟩ := by decide
/-- W13. -/
theorem test_cpr_all_bits : recordAfter .cpr (stateOf 0xA6 true true) =
    some (.operation ⟨some 0xA6, some .ctrlSel, none, false, true, true⟩) := by decide
/-- Q22: forwarded. -/
theorem test_spkd_forwarded : tripleAfter (.spkd true) (stateOf 0xFE false false) = some ⟨0xFE, true, true⟩ := by decide
/-- Q18: recorded only. -/
theorem test_spkd_gated : tripleAfter (.spkd true) (stateOf 0xFD false false) = some ⟨0xFD, true, false⟩ := by decide
/-- Z3: `D` survives. -/
theorem test_reset_keeps_data : tripleAfter .reset (stateOf 0x02 true true) = some ⟨0x00, true, false⟩ := by decide
/-- Z2: from power-on with `p = 1`. -/
theorem test_reset_silences : tripleAfter .reset (stateOf 0xFF false true) = some ⟨0x00, false, false⟩ := by decide

/-- M5. -/
theorem test_memRam1 : recordAfter (.memRam1 0x7FFFF) State.reset =
    some (.lookup (.ram ⟨0x00000, 0xA0000, .ram⟩ 0x7FFFF)) := by decide
/-- M8. -/
theorem test_memRam2 : recordAfter (.memRam2 0x9FFFF) State.reset =
    some (.lookup (.ram ⟨0x00000, 0xA0000, .ram⟩ 0x9FFFF)) := by decide
/-- M9, M12, M14, M17. -/
theorem test_memUnmapped : recordAfter (.memUnmapped3 0xA0000) State.reset = some (.lookup .unmapped) ∧
    recordAfter (.memUnmapped4 0xC0000) State.reset = some (.lookup .unmapped) ∧
    recordAfter (.memUnmapped5 0xE0000) State.reset = some (.lookup .unmapped) ∧
    recordAfter (.memUnmapped6 0xF7FFF) State.reset = some (.lookup .unmapped) := by decide
/-- M20. -/
theorem test_memRom7 : recordAfter (.memRom7 0xFFFF0) State.reset =
    some (.lookup (.rom ⟨0xF8000, 0x08000, .rom⟩ 0x7FF0)) := by decide
/-- I3, I7, I12, I17. -/
theorem test_io_rows : recordAfter .ioCtrl State.reset = some (.lookup .ctrl) ∧
    recordAfter (.ioScsi 0x0333) State.reset = some (.lookup (.window ⟨0x0330, 8, .scsi⟩ 3)) ∧
    recordAfter (.ioFdc 0x0372) State.reset = some (.lookup (.window ⟨0x0370, 8, .fdc⟩ 2)) ∧
    recordAfter (.ioUart 0x03FD) State.reset = some (.lookup (.window ⟨0x03F8, 8, .uart⟩ 5)) := by decide
/-- 30_encoding.md R94. -/
theorem test_dma_rows : recordAfter .dmaCh0 State.reset = some (.lookup (.dma .xbus)) ∧
    recordAfter .dmaCh1 State.reset = some (.lookup (.dma .fdc)) ∧
    recordAfter .dmaCh2 State.reset = some (.lookup (.dma .scsi)) := by decide

/-- The step runs the presented word: PRG1, step 2, and the trace index moves by 1. -/
theorem test_step_runs_presented : (stateAfter (step ((stateOf 0x02 false false).withFetchWord 32 0x60000001))).map
    (fun t => (t.save, t.index, t.pending)) = some (⟨0x02, true, true⟩, 1, []) := by decide
/-- T32 at the step. -/
theorem test_step_refuses_malformed : whyRefused (step (State.reset.withFetchWord 32 0x80000000)) =
    some (.malformed (.reservedKind 0x8)) := by decide

/-! ## Construction, save, restore -/

/-- K2. -/
theorem test_construct_overlap : whyRefused (construct { Config.glue with
    regions := [⟨0x00000, 0xF8001, .ram⟩, ⟨0xF8000, 0x08000, .rom⟩] }) = some (.configError .memRegionOverlap) := by decide
/-- K3, K9. -/
theorem test_construct_region_range : whyRefused (construct { Config.glue with
      regions := [⟨0x00000, 0xA0000, .ram⟩, ⟨0xF8000, 0x08001, .rom⟩] }) =
        some (.configError .memRegionOutOfRange) ∧
    whyRefused (construct { Config.glue with regions := [⟨0x00000, 0, .ram⟩, ⟨0xF8000, 0x08000, .rom⟩] }) =
      some (.configError .memRegionOutOfRange) := by decide
/-- K4. -/
theorem test_construct_windows : whyRefused (construct { Config.glue with
    windows := [⟨0x0330, 8, .scsi⟩, ⟨0x0336, 8, .fdc⟩, ⟨0x03F8, 8, .uart⟩] }) =
      some (.configError .ioWindowOverlap) := by decide
/-- K5. -/
theorem test_construct_window_range : whyRefused (construct { Config.glue with
    windows := [⟨0x0330, 8, .scsi⟩, ⟨0x0370, 8, .fdc⟩, ⟨0xFFFC, 8, .uart⟩] }) =
      some (.configError .ioWindowOutOfRange) := by decide
/-- K6. -/
theorem test_construct_ctrl_port : whyRefused (construct { Config.glue with ctrlPort := 0x0333 }) =
    some (.configError .ctrlPortInWindow) := by decide
/-- K7. -/
theorem test_construct_channel : whyRefused (construct { Config.glue with bindings := [⟨.ch1, .fdc⟩, ⟨.ch2, .scsi⟩] }) =
    some (.configError .dmaChannelUnbound) := by decide
/-- Log entry 15: a channel listed twice with one peripheral is refused too. -/
theorem test_construct_channel_twice : whyRefused (construct { Config.glue with
    bindings := [⟨.ch0, .xbus⟩, ⟨.ch0, .xbus⟩, ⟨.ch1, .fdc⟩, ⟨.ch2, .scsi⟩] }) =
      some (.configError .dmaChannelUnbound) := by decide
/-- K8: abutting is not overlapping. -/
theorem test_construct_abutting : checkParams { Config.glue with
    regions := [⟨0x00000, 0xF8000, .ram⟩, ⟨0xF8000, 0x08000, .rom⟩] } = none := by decide
/-- 43_composition_root.md R228: no transition logic runs, though `L[1]` goes from 0 to 1. -/
theorem test_restore_sets_the_triple : (stateAfter (restore ⟨0x02, true, true⟩ (stateOf 0x00 false false))).map
    State.save = some ⟨0x02, true, true⟩ := by decide
/-- 10_state.md R47: `L[1] = 0` with `O = 1` is reached by no trace. -/
theorem test_restore_refuses_noise : whyRefused (restore ⟨0x00, true, true⟩ State.reset) =
    some .restoreUnreachable := by
  have h : enableBit 0#8 = false := by decide
  simp [restore, Saved.reachable, Saved.closed, h, whyRefused]

/-! ## Witnesses: states and operands that meet the hypotheses of each statement that has any -/

theorem witness_DecodeOfEncodeIsTheInstruction :
    (Instr.memRam1 0x7FFFF).wf = true ∧ Instr.memRam1 0x7FFFF ≠ .ior 0x0061 ∧
    (∀ v, Instr.memRam1 0x7FFFF ≠ .iow 0x0061 v) ∧ (Instr.iow 0x0061 0xA6).wf = true :=
  ⟨by decide, by decide, fun _ h => (nomatch h), by decide⟩

theorem witness_EncodeOfDecodeIsThePresentation : decode (.traceWord 0x500002FF) = .ok (.dmaw .ch2 0xFF) := by decide

/-- Each clause at a boundary value of its field. -/
theorem witness_MalformedTraceWordsAreRefusedByName :
    (8 ≤ ((0x80000000 : TraceWord).extractLsb' 28 4).toNat ∧ 8 ≤ ((0xFFFFFFFF : TraceWord).extractLsb' 28 4).toNat) ∧
    ((0x00000001 : TraceWord).extractLsb' 28 4 = 0x0 ∧ (0x00000001 : TraceWord).extractLsb' 0 8 ≠ 0) ∧
    ((0x20006180 : TraceWord).extractLsb' 28 4 = 0x2 ∧ (0x20006180 : TraceWord).extractLsb' 0 8 ≠ 0) ∧
    ((0x21006100 : TraceWord).extractLsb' 28 4 = 0x2 ∧ (0x21006100 : TraceWord).extractLsb' 0 8 = 0 ∧
      (0x21006100 : TraceWord).extractLsb' 24 4 ≠ 0) ∧
    ((0x3100611C : TraceWord).extractLsb' 28 4 = 0x3 ∧ (0x3100611C : TraceWord).extractLsb' 24 4 ≠ 0) ∧
    ((0x40000001 : TraceWord).extractLsb' 28 4 = 0x4 ∧ (0x40000001 : TraceWord).extractLsb' 0 8 ≠ 0) ∧
    ((0x40000400 : TraceWord).extractLsb' 28 4 = 0x4 ∧ (0x40000400 : TraceWord).extractLsb' 0 8 = 0 ∧
      (0x40000400 : TraceWord).extractLsb' 10 18 ≠ 0) ∧
    ((0x40000300 : TraceWord).extractLsb' 28 4 = 0x4 ∧ (0x40000300 : TraceWord).extractLsb' 0 8 = 0 ∧
      (0x40000300 : TraceWord).extractLsb' 10 18 = 0 ∧ (0x40000300 : TraceWord).extractLsb' 8 2 = 3) ∧
    ((0x50000400 : TraceWord).extractLsb' 28 4 = 0x5 ∧ (0x50000400 : TraceWord).extractLsb' 10 18 ≠ 0) ∧
    ((0x500003FF : TraceWord).extractLsb' 28 4 = 0x5 ∧ (0x500003FF : TraceWord).extractLsb' 10 18 = 0 ∧
      (0x500003FF : TraceWord).extractLsb' 8 2 = 3) ∧
    ((0x60000100 : TraceWord).extractLsb' 28 4 = 0x6 ∧ (0x60000100 : TraceWord).extractLsb' 8 20 ≠ 0) ∧
    ((0x60000002 : TraceWord).extractLsb' 28 4 = 0x6 ∧ (0x60000002 : TraceWord).extractLsb' 8 20 = 0 ∧
      (0x60000002 : TraceWord).extractLsb' 1 7 ≠ 0) ∧
    ((0x70000001 : TraceWord).extractLsb' 28 4 = 0x7 ∧ (0x70000001 : TraceWord).extractLsb' 0 28 ≠ 0) := by decide

/-- Both ends of each range of R60: the hypotheses of DecodeMemoryFollowsTheMap, MemrReturnsTheSelectedByte,
UnmappedWritesAreDiscarded (memory), RomWritesAreDiscarded and MemoryReadReturnsTheLatestWrite. -/
theorem witness_memory_ranges :
    ((0x00000 : Address).toNat ≤ 0x9FFFF ∧ (0x9FFFF : Address).toNat ≤ 0x9FFFF) ∧
    (0xA0000 ≤ (0xA0000 : Address).toNat ∧ (0xA0000 : Address).toNat ≤ 0xF7FFF) ∧
    (0xA0000 ≤ (0xF7FFF : Address).toNat ∧ (0xF7FFF : Address).toNat ≤ 0xF7FFF) ∧
    (0xF8000 ≤ (0xF8000 : Address).toNat ∧ 0xF8000 ≤ (0xFFFFF : Address).toNat) := by decide

theorem witness_OffsetsAreDistancesFromTheBase :
    (decodeMemory 0x00000 = .ram ∧ decodeMemory 0x9FFFF = .ram) ∧
    (decodeMemory 0xF8000 = .rom ∧ decodeMemory 0xFFFFF = .rom) ∧
    (ioSelect 0x0330 = .window .scsi ∧ ioSelect 0x0337 = .window .scsi) ∧
    (ioSelect 0x0370 = .window .fdc ∧ ioSelect 0x0377 = .window .fdc) ∧
    (ioSelect 0x03F8 = .window .uart ∧ ioSelect 0x03FF = .window .uart) := by decide

/-- A second address differs from the one written, on either side of the end of RAM. -/
theorem witness_MemwToRamStoresOneByte :
    (0x9FFFF : Address).toNat ≤ 0x9FFFF ∧ (0x9FFFE : Address) ≠ 0x9FFFF ∧ (0xA0000 : Address) ≠ 0x9FFFF := by simp

/-- The ports beside the windows and beside the control port: the hypotheses of UnmappedWritesAreDiscarded (I/O) and
UnmappedPortReadsOpenBus. -/
theorem witness_unmapped_ports :
    ∀ p ∈ [(0x0060 : Port), 0x0062, 0x032F, 0x0338, 0x036F, 0x0378, 0x03F7, 0x0400, 0x8061, 0xFFFF],
      p ≠ 0x0061 ∧ ¬ (0x0330 ≤ p.toNat ∧ p.toNat ≤ 0x0337) ∧ ¬ (0x0370 ≤ p.toNat ∧ p.toNat ≤ 0x0377) ∧
      ¬ (0x03F8 ≤ p.toNat ∧ p.toNat ≤ 0x03FF) := by simp

/-- Both ends of each window: the hypotheses of WindowReadsArePassedThrough and WindowWritesArePassedThrough. -/
theorem witness_window_ports :
    (0x0330 ≤ (0x0330 : Port).toNat ∧ (0x0337 : Port).toNat ≤ 0x0337) ∧
    (0x0370 ≤ (0x0370 : Port).toNat ∧ (0x0377 : Port).toNat ≤ 0x0377) ∧
    (0x03F8 ≤ (0x03F8 : Port).toNat ∧ (0x03FF : Port).toNat ≤ 0x03FF) := by decide

theorem witness_SelectDependsOnTheAddressOnly :
    (∃ t t', exec (.memr 0x9FFFF) State.reset = .next t ∧ exec (.memw 0x9FFFF 0xCD) State.powerOn = .next t') ∧
    (∃ t t', exec (.ior 0x0061) State.reset = .next t ∧ exec (.iow 0x0061 0xCD) State.powerOn = .next t') :=
  ⟨⟨_, _, rfl, rfl⟩, ⟨_, _, rfl, rfl⟩⟩

/-- P1, P3, P5, P9: one write for each row of the transition table. -/
theorem witness_ControlWriteFollowsTheTransitionTable :
    ((stateOf 0x00 true false).latch.getLsbD 1 = false ∧ (0x01 : Byte).getLsbD 1 = false) ∧
    ((stateOf 0x00 true false).latch.getLsbD 1 = false ∧ (0x03 : Byte).getLsbD 1 = true) ∧
    ((stateOf 0x02 true true).latch.getLsbD 1 = true ∧ (0x01 : Byte).getLsbD 1 = false) ∧
    ((stateOf 0x02 true true).latch.getLsbD 1 = true ∧ (0x03 : Byte).getLsbD 1 = true) := by decide

theorem witness_ControlReadReturnsTheLatch : ∃ t, exec .reset State.powerOn = .next t := ⟨_, rfl⟩

/-- W1, W6: the two low bits agree, the upper six do not. -/
theorem witness_StoredBitsHaveNoEffect :
    (0x02 : Byte).extractLsb' 0 2 = (0xFE : Byte).extractLsb' 0 2 ∧ (0x02 : Byte) ≠ 0xFE := by decide

/-- The hypothesis of ClosedFormIsKeptByWritesAndData and of WriteAndDataChangeCommute, with the speaker sounding. -/
theorem witness_closed : (stateOf 0x02 true true).Closed := show true = (enableBit 0x02 && true) by decide

/-- The state one `RESET` after power-on. -/
def bootedState : State := (State.powerOnWith [encode .reset] []).advance.machineReset.observe none none none

theorem booted_step : step (State.powerOnWith [encode .reset] []) = .next bootedState :=
  step_cons (x := encode .reset) (rest := []) (i := .reset) rfl (by decide)

/-- The hypothesis of ResetFromAReachableStateSilences, of SavedReachableTriplesAreRestored and of
ReachableStatesAreSilentAndClosed. -/
theorem witness_reachable : Reachable (State.powerOnWith [encode .reset] []) ∧ Reachable bootedState ∧
    bootedState.enable = false ∧ bootedState.resetDone = true :=
  ⟨.powerOn _ _, .step _ _ (.powerOn _ _) booted_step, show enableBit Config.latchReset = false by decide, rfl⟩

theorem witness_NoStaleSpeakerLevel : Reachable bootedState ∧ bootedState.enable = false ∧
    ∃ t, exec (.cpw 0x02) bootedState = .next t ∧ t.enable = true :=
  ⟨witness_reachable.2.1, witness_reachable.2.2.1, _, rfl, show enableBit 0x02 = true by decide⟩

/-- Both ends of each row of R92. -/
theorem witness_MemoryRowsAnswerTheirRegion :
    ((Instr.memRam1 0x00000).wf ∧ (Instr.memRam1 0x7FFFF).wf) ∧ ((Instr.memRam2 0x80000).wf ∧ (Instr.memRam2 0x9FFFF).wf) ∧
    ((Instr.memUnmapped3 0xA0000).wf ∧ (Instr.memUnmapped3 0xBFFFF).wf) ∧
    ((Instr.memUnmapped4 0xC0000).wf ∧ (Instr.memUnmapped4 0xDFFFF).wf) ∧
    ((Instr.memUnmapped5 0xE0000).wf ∧ (Instr.memUnmapped5 0xEFFFF).wf) ∧
    ((Instr.memUnmapped6 0xF0000).wf ∧ (Instr.memUnmapped6 0xF7FFF).wf) ∧
    ((Instr.memRom7 0xF8000).wf ∧ (Instr.memRom7 0xFFFFF).wf) := by decide

/-- Both ends of each window row of R93. -/
theorem witness_PortRowsAnswerTheirTarget :
    ((Instr.ioScsi 0x0330).wf ∧ (Instr.ioScsi 0x0337).wf) ∧ ((Instr.ioFdc 0x0370).wf ∧ (Instr.ioFdc 0x0377).wf) ∧
    ((Instr.ioUart 0x03F8).wf ∧ (Instr.ioUart 0x03FF).wf) := by decide

/-- W5: the hypotheses of OnlyControlWritesAndResetChangeTheLatch. -/
theorem witness_OnlyControlWritesAndResetChangeTheLatch :
    ∃ t, exec (.cpw 0xFC) (stateOf 0x00 true false) = .next t ∧ t.latch ≠ (stateOf 0x00 true false).latch :=
  ⟨_, rfl, by decide⟩

/-- Q2. -/
theorem witness_OnlySpeakerDataChangesTheDataBit :
    ∃ t, exec (.spkd true) (stateOf 0x00 false false) = .next t ∧ t.data ≠ (stateOf 0x00 false false).data :=
  ⟨_, rfl, by decide⟩

/-- P4, Q10, Z3: one change of the speaker for each source. -/
theorem witness_OnlyGatedEventsChangeTheSpeaker :
    (∃ t, exec (.cpw 0x03) (stateOf 0x00 true false) = .next t ∧ t.out ≠ (stateOf 0x00 true false).out) ∧
    (∃ t, exec (.spkd true) (stateOf 0x02 false false) = .next t ∧ t.out ≠ (stateOf 0x02 false false).out) ∧
    (∃ t, exec .reset (stateOf 0x02 true true) = .next t ∧ t.out ≠ (stateOf 0x02 true true).out) :=
  ⟨⟨_, rfl, by decide⟩, ⟨_, rfl, by decide⟩, ⟨_, rfl, by decide⟩⟩

/-- MW2 over an older byte. -/
theorem witness_OnlyMemoryWritesChangeMemory :
    ∃ t, exec (.memw 0x9FFFF 0xCD) (stateOf 0 false false [(0x9FFFF, 0x11)]) = .next t ∧
      t.memByte 0x9FFFF ≠ (stateOf 0 false false [(0x9FFFF, 0x11)]).memByte 0x9FFFF :=
  ⟨(stateOf 0 false false [(0x9FFFF, 0xCD)]).observe none (some .ramSel) (some (.ramWrite 0x9FFFF 0xCD)), rfl, by decide⟩

/-- An operation and a decode row. -/
theorem witness_EveryOperationRecordsItsLevels :
    (∃ t, exec (.cpw 0x03) (stateOf 0x00 true false) = .next t ∧ isOperation (.cpw 0x03) = true) ∧
    (∃ t, exec .ioCtrl State.reset = .next t ∧ isOperation .ioCtrl = false) :=
  ⟨⟨_, rfl, rfl⟩, ⟨_, rfl, rfl⟩⟩

/-- Calls are made on the floppy controller both ways: IW3, and channel 1 of X5. -/
theorem witness_EachPeripheralIsOneCollaborator :
    (∃ t, exec (.iow 0x0372 0x1C) State.reset = .next t ∧ t.lastCallIsOn .fdc) ∧
    (∃ t, exec (.dmaw .ch1 0x00) State.reset = .next t ∧ t.lastCallIsOn .fdc) :=
  ⟨⟨_, rfl, _, _, rfl, rfl, rfl⟩, ⟨_, rfl, _, _, rfl, rfl, rfl⟩⟩

/-- An operation, nothing pending, and a bare port of no row. -/
theorem witness_StepRunsTheDecodedInstruction :
    ((State.reset.present (.traceWord 0x60000001)).pending = [.traceWord 0x60000001] ∧
      decode (.traceWord 0x60000001) = .ok (.spkd true)) ∧
    State.reset.pending = [] ∧
    ((State.reset.present (.ioPort 0x0000)).pending = [.ioPort 0x0000] ∧
      decode (.ioPort 0x0000) = .error .portSelectsNothing) :=
  ⟨⟨rfl, by decide⟩, rfl, ⟨rfl, by decide⟩⟩

/-- Both sides are met: channel 3 presented alone. -/
theorem witness_StepRefusesExactlyMalformedPresentations :
    step (State.reset.present (.dmaChannel 3)) = .refused (.malformed .channelThree) :=
  step_undecoded (s := State.reset.present (.dmaChannel 3)) (rest := []) rfl
    (show decode (.dmaChannel 3) = .error .channelThree by decide)

/-- Inv with a reset behind, RAM written, and a step to take. -/
theorem witness_EveryStepKeepsTheInvariant :
    ((stateOf 0x02 true true [(0x00061, 0x03), (0x9FFFF, 0xCD)]).present (.traceWord 0x60000000)).Inv ∧
    ∃ t, step ((stateOf 0x02 true true [(0x00061, 0x03), (0x9FFFF, 0xCD)]).present (.traceWord 0x60000000)) = .next t :=
  ⟨⟨fun h => absurd h (show enableBit 0x02 ≠ false by decide), fun _ => show true = (enableBit 0x02 && true) by decide,
    show Memory.wf [(0x00061, 0x03), (0x9FFFF, 0xCD)] = true by decide⟩,
    _, step_cons (i := .spkd false) rfl (by decide)⟩

theorem witness_MemoryReadReturnsTheLatestWrite :
    (0x9FFFF : Address).toNat ≤ 0x9FFFF ∧
    ∀ i ∈ [Instr.reset, .memw 0x9FFFE 0x11, .memr 0x9FFFF, .memw 0xA0000 0x22], ∀ w, i ≠ .memw 0x9FFFF w := by
  refine ⟨by decide, ?_⟩
  simp

theorem witness_ControlReadReturnsTheLatestWrite :
    ∀ i ∈ [Instr.spkd true, .iow 0x0461 0x03, .memw 0x00061 0x03, .cpr], writesControlPort i = false ∧ i ≠ .reset := by
  decide

theorem witness_TracesRunInOrderOneOperationAStep :
    (∀ i ∈ [Instr.reset, .cpw 0x02, .spkd true], i.wf = true) ∧
    (State.powerOnWith ([Instr.reset, .cpw 0x02, .spkd true].map encode) []).pending =
      [Instr.reset, .cpw 0x02, .spkd true].map encode ∧
    ∃ u, runOps [Instr.reset, .cpw 0x02, .spkd true]
      (State.powerOnWith ([Instr.reset, .cpw 0x02, .spkd true].map encode) []) = .next u :=
  ⟨by decide, rfl, _, rfl⟩

theorem witness_BootPremiseReachesTheResetState : bootPremise [.traceWord 0x70000000, .traceWord 0x30006102] :=
  ⟨[.traceWord 0x30006102], rfl⟩

/-- A triple with `L[1] = 0` and `O = 1`; no trace reaches it. -/
theorem witness_UnreachableTriplesAreRefused :
    (⟨0x01, true, true⟩ : Saved).latch.getLsbD 1 = false ∧ (⟨0x01, true, true⟩ : Saved).out = true := by decide

end Sys2Proof.Tests
end

