-- ==== Sys2Proof/Proofs/Silent.lean ====
section
/-! The invariant (J) of 10_state.md R47: the speaker is silent while it is disabled. It holds at power-on, every
instruction and every step keeps it, so it holds of every reachable state. -/

namespace Sys2Proof.Machine

/-- (J) speaks of the latch and the speaker level alone. -/
theorem State.Silent.congr {s t : State} (hs : s.Silent) (hl : t.latch = s.latch) (ho : t.out = s.out) :
    t.Silent := by
  simp only [State.Silent, State.enable, hl, ho]
  exact hs

/-- Each row of the transition table that ends disabled ends with the speaker off: the row that leaves the level alone
starts disabled, where (J) makes it 0 (42_control_port.md R181, R190). -/
theorem State.Silent.writeLatch_out {s : State} (hs : s.Silent) {v : Byte} (hv : enableBit v = false) :
    (s.writeLatch v).out = false := by
  rw [State.writeLatch_out, hv]
  cases he : s.enable with
  | false => exact hs he
  | true => rfl

theorem State.Silent.writeLatch {s : State} (hs : s.Silent) (v : Byte) : (s.writeLatch v).Silent :=
  hs.writeLatch_out

theorem State.Silent.machineReset_out {s : State} (hs : s.Silent) : s.machineReset.out = false :=
  hs.writeLatch_out enableBit_latchReset

/-- A data change reaches the speaker only while it is enabled (42_control_port.md R184). -/
theorem State.Silent.recordData {s : State} (hs : s.Silent) (b : Bool) : (s.recordData b).Silent := by
  intro he
  rw [State.recordData_enable] at he
  rw [State.recordData_out, he, speakerAfterData_off]
  exact hs he

/-- The latch enables the speaker at power-on, so (J) holds whatever the open level is. -/
theorem State.powerOnWith_silent (trace : List Presented) (answers : List Byte) :
    (State.powerOnWith trace answers).Silent := fun he =>
  absurd (State.powerOn_enable.symm.trans he) (by decide)

theorem exec_silent {i : Instr} {s t : State} (h : exec i s = .next t) (hs : s.Silent) : t.Silent := by
  obtain ⟨_, _, _, rfl⟩ | ⟨_, rfl⟩ | ⟨_, _, rfl⟩ | ⟨_, _, rfl⟩ | ⟨_, _, _, _, rfl⟩ | ⟨v, _, rfl⟩ | ⟨b, _, rfl⟩ | ⟨_, rfl⟩ :=
    exec_cases h
  · exact hs.congr rfl rfl
  · exact hs.congr rfl rfl
  · exact hs.congr rfl rfl
  · exact hs.congr rfl rfl
  · exact hs.congr rfl rfl
  · exact (hs.writeLatch v).congr rfl rfl
  · exact (hs.recordData b).congr rfl rfl
  · exact (hs.writeLatch Config.latchReset).congr rfl rfl

theorem step_silent {s t : State} (h : step s = .next t) (hs : s.Silent) : t.Silent := by
  have ha : s.advance.Silent := hs.congr rfl rfl
  obtain ⟨_, rfl⟩ | ⟨_, _, _, _, _, he⟩ | ⟨_, _, _, _, rfl⟩ := step_cases h
  · exact hs
  · exact exec_silent he ha
  · exact ha.congr rfl rfl

theorem Reachable.silent {s : State} (h : Reachable s) : s.Silent := by
  induction h with
  | powerOn trace answers => exact State.powerOnWith_silent trace answers
  | step s t _ hst ih => exact step_silent hst ih

end Sys2Proof.Machine
end

