-- ==== Sys2Proof/Proofs/Reset.lean ====
section
/-! The machine reset of a reachable state (10_state.md R46). -/

namespace Sys2Proof.Machine

theorem exec_reset (s : State) : exec .reset s = .next (s.machineReset.observe none none none) := rfl

/-- Settles O27: the table row for a write of 0 leaves the speaker level alone when the speaker is already disabled, and
there the invariant (J) of reachable states says that the level is 0. -/
theorem resetFromAReachableStateSilences : Obligations.ResetFromAReachableStateSilences := by
  constructor
  · intro s hs
    have hout : s.machineReset.out = false := hs.silent.machineReset_out
    exact ⟨_, exec_reset s, rfl, hout, rfl, gateBit_latchReset, enableBit_latchReset,
      State.memByte_congr s _ rfl, rfl, ⟨rfl, rfl, rfl, rfl⟩, rfl⟩
  · intro trace answers
    exact ⟨_, exec_reset _, rfl, rfl, (State.powerOnWith_silent trace answers).machineReset_out⟩

end Sys2Proof.Machine
end

