-- ==== Sys2Proof/Proofs/MemoryMap.lean ====
section
/-! The memory map and the I/O map (20_memory.md R60, R62), and what a write outside them does (R66). -/

namespace Sys2Proof.Machine

/-- The decoder knows a window by its first port and its size; R62 gives it by its first and its last port. -/
theorem mem_window_iff_decodeIo (p : Port) (d : RegPeripheral) :
    (Config.window d).base ≤ p.toNat ∧ p.toNat ≤ (Config.window d).base + 7 ↔ decodeIo p = some d := by
  rw [decodeIo_eq_some_iff, Nat.lt_succ_iff]

theorem decodeIo_eq_none_iff (p : Port) : decodeIo p = none ↔
    ∀ d, ¬ ((Config.window d).base ≤ p.toNat ∧ p.toNat ≤ (Config.window d).base + 7) := by
  simp only [mem_window_iff_decodeIo]
  exact Option.eq_none_iff_forall_ne_some

theorem ioSelect_eq_unmapped {p : Port} (hc : p ≠ Config.ctrlPort) (hd : decodeIo p = none) :
    ioSelect p = .unmapped := by
  rw [ioSelect, if_neg hc, hd]

/-- The record an operation adds holds the levels of the state it is added to (43_composition_root.md R225). -/
theorem State.observe_eq_recordOf (s : State) (r : Option Byte) (sel : Option Select) (c : Option Call) :
    s.observe r sel c = { s with log := recordOf s r sel c :: s.log } := rfl

theorem exec_memw_unmapped {a : Address} (h : decodeMemory a = .unmapped) (v : Byte) (s : State) :
    exec (.memw a v) s = .next (s.observe none none none) := by
  simp only [exec, execMemw, h]

theorem exec_iow_unmapped {p : Port} (h : ioSelect p = .unmapped) (v : Byte) (s : State) :
    exec (.iow p v) s = .next (s.observe none none none) := by
  simp only [exec, execIow, h]

/-- Settles O6: each range of R60 has its own decoding lemma. -/
theorem decodeMemoryFollowsTheMap : Obligations.DecodeMemoryFollowsTheMap := fun _ =>
  ⟨decodeMemory_ram, decodeMemory_unmapped, decodeMemory_rom⟩

/-- Settles O8: the three windows are instances of one lemma, and the control port lies in none of them. -/
theorem decodeIoFollowsTheMap : Obligations.DecodeIoFollowsTheMap :=
  ⟨fun p => ⟨mem_window_iff_decodeIo p .scsi, mem_window_iff_decodeIo p .fdc, mem_window_iff_decodeIo p .uart⟩,
    by decide⟩

/-- Settles O15: the decoder selects nothing there, and a write that selects nothing only adds its record. -/
theorem unmappedWritesAreDiscarded : Obligations.UnmappedWritesAreDiscarded := by
  intro s v
  rw [← State.observe_eq_recordOf]
  constructor
  · intro a hlo hhi
    exact exec_memw_unmapped (decodeMemory_unmapped hlo hhi) v s
  · intro p hctrl hscsi hfdc huart
    have hnone : decodeIo p = none := by
      rw [decodeIo_eq_none_iff]
      intro d
      cases d with
      | scsi => exact hscsi
      | fdc => exact hfdc
      | uart => exact huart
    exact exec_iow_unmapped (ioSelect_eq_unmapped hctrl hnone) v s

end Sys2Proof.Machine
end

