-- ==== Sys2Proof/Proofs/ControlPort.lean ====
section
/-! The control-port write row by row (42_control_port.md R181), and the level at the moment the speaker is enabled
(R190). -/

namespace Sys2Proof.Machine

theorem exec_cpw (v : Byte) (s : State) : exec (.cpw v) s = .next (s.controlWrite v) := rfl

section WriteRows

variable {s : State} {v : Byte}

theorem State.controlWrite_out_of_disabled_disabling (hs : s.enable = false) (hv : enableBit v = false) :
    (s.controlWrite v).out = s.out := by
  rw [State.controlWrite_out, hs, hv, speakerAfterWrite_stayOff]

theorem State.controlWrite_out_of_disabled_enabling (hs : s.enable = false) (hv : enableBit v = true) :
    (s.controlWrite v).out = s.data := by
  rw [State.controlWrite_out, hs, hv, speakerAfterWrite_enable]

theorem State.controlWrite_out_of_enabled_disabling (hs : s.enable = true) (hv : enableBit v = false) :
    (s.controlWrite v).out = false := by
  rw [State.controlWrite_out, hs, hv, speakerAfterWrite_disable]

theorem State.controlWrite_out_of_enabled_enabling (hs : s.enable = true) (hv : enableBit v = true) :
    (s.controlWrite v).out = s.out := by
  rw [State.controlWrite_out, hs, hv, speakerAfterWrite_stayOn]

end WriteRows

/-- Only a control-port write can enable the speaker: a machine reset disables it, and every other instruction leaves
the latch alone. -/
theorem exec_enabling_is_controlWrite {i : Instr} {s t : State} (h : exec i s = .next t) (hoff : s.enable = false)
    (hon : t.enable = true) : ∃ v, enableBit v = true ∧ t = s.controlWrite v := by
  have changed : t.enable ≠ s.enable := by rw [hon, hoff]; decide
  obtain ⟨_, _, _, rfl⟩ | ⟨_, rfl⟩ | ⟨_, _, rfl⟩ | ⟨_, _, rfl⟩ | ⟨_, _, _, _, rfl⟩ | ⟨v, _, rfl⟩ | ⟨_, _, rfl⟩ | ⟨_, rfl⟩ :=
    exec_cases h
  · exact absurd rfl changed
  · exact absurd rfl changed
  · exact absurd rfl changed
  · exact absurd rfl changed
  · exact absurd rfl changed
  · exact ⟨v, hon, rfl⟩
  · exact absurd rfl changed
  · exact absurd (enableBit_latchReset.symm.trans hon) (by decide)

/-- Settles O22: each row of the table is the lemma of its name. -/
theorem controlWriteFollowsTheTransitionTable : Obligations.ControlWriteFollowsTheTransitionTable := fun s v =>
  ⟨s.controlWrite v, exec_cpw v s, rfl, rfl, rfl,
    State.controlWrite_out_of_disabled_disabling, State.controlWrite_out_of_disabled_enabling,
    State.controlWrite_out_of_enabled_disabling, State.controlWrite_out_of_enabled_enabling⟩

/-- Settles O32: the first part is the invariant (J); in the second the instruction can only be a control-port write,
whose row for enabling takes the level from the data bit. -/
theorem noStaleSpeakerLevel : Obligations.NoStaleSpeakerLevel := by
  intro s hs
  refine ⟨hs.silent, fun i t hoff hexec hon => ?_⟩
  obtain ⟨v, hv, rfl⟩ := exec_enabling_is_controlWrite hexec hoff hon
  exact ⟨State.controlWrite_out_of_disabled_enabling hoff hv, rfl⟩

end Sys2Proof.Machine
end

