-- ==== Sys2Proof/Proofs/Totality.lean ====
section
/-! Every instruction has a next state (60_exceptions.md R240). Only the four bus cycles branch, on what the decoder
selects; every other instruction answers its next state directly. -/

namespace Sys2Proof.Machine

theorem execMemr_total (a : Address) (s : State) : ∃ t, execMemr a s = .next t := by
  unfold execMemr
  cases decodeMemory a with
  | ram => exact ⟨_, rfl⟩
  | rom => exact ⟨_, rfl⟩
  | unmapped => exact ⟨_, rfl⟩

theorem execMemw_total (a : Address) (v : Byte) (s : State) : ∃ t, execMemw a v s = .next t := by
  unfold execMemw
  cases decodeMemory a with
  | ram => exact ⟨_, rfl⟩
  | rom => exact ⟨_, rfl⟩
  | unmapped => exact ⟨_, rfl⟩

theorem execIor_total (p : Port) (s : State) : ∃ t, execIor p s = .next t := by
  unfold execIor
  cases ioSelect p with
  | ctrl => exact ⟨_, rfl⟩
  | window d => exact ⟨_, rfl⟩
  | unmapped => exact ⟨_, rfl⟩

theorem execIow_total (p : Port) (v : Byte) (s : State) : ∃ t, execIow p v s = .next t := by
  unfold execIow
  cases ioSelect p with
  | ctrl => exact ⟨_, rfl⟩
  | window d => exact ⟨_, rfl⟩
  | unmapped => exact ⟨_, rfl⟩

theorem exec_total (i : Instr) (s : State) : ∃ t, exec i s = .next t := by
  cases i with
  | memr a => exact execMemr_total a s
  | memw a v => exact execMemw_total a v s
  | ior p => exact execIor_total p s
  | iow p v => exact execIow_total p v s
  | _ => exact ⟨_, rfl⟩

/-- Settles O41: every instruction has a next state, and a step cannot fault because the type of faults has no
constructor. -/
theorem noInstructionCanFail : Obligations.NoInstructionCanFail :=
  ⟨exec_total, fun _ f => nomatch f⟩

end Sys2Proof.Machine
end

