-- ==== Sys2Proof/Proofs/TraceWords.lean ====
section
/-! Trace words (30_encoding.md R96 to R99): the decoder kind by kind, the fields as parts of one another, and from
these the two round trips, the accepted words and the refused ones. -/

namespace Sys2Proof

section DecoderByKind

variable {w : TraceWord}

theorem decodeTrace_memr (h : TraceWord.kind w = 0x0) :
    decodeTrace w = if TraceWord.data w ≠ 0 then .error .dataNotZero else .ok (.memr (TraceWord.addr w)) := by
  rw [decodeTrace, h]; rfl

theorem decodeTrace_memw (h : TraceWord.kind w = 0x1) :
    decodeTrace w = .ok (.memw (TraceWord.addr w) (TraceWord.data w)) := by
  rw [decodeTrace, h]; rfl

theorem decodeTrace_ior (h : TraceWord.kind w = 0x2) :
    decodeTrace w = if TraceWord.data w ≠ 0 then .error .dataNotZero
      else if TraceWord.portHigh w ≠ 0 then .error .portHighNotZero
      else .ok (Instr.ior (TraceWord.port w)).canonical := by
  rw [decodeTrace, h, Instr.canonical, apply_ite Except.ok]; rfl

theorem decodeTrace_iow (h : TraceWord.kind w = 0x3) :
    decodeTrace w = if TraceWord.portHigh w ≠ 0 then .error .portHighNotZero
      else .ok (Instr.iow (TraceWord.port w) (TraceWord.data w)).canonical := by
  rw [decodeTrace, h, Instr.canonical, apply_ite Except.ok]; rfl

theorem decodeTrace_dmar (h : TraceWord.kind w = 0x4) :
    decodeTrace w = if TraceWord.data w ≠ 0 then .error .dataNotZero else (decodeChannel w).map .dmar := by
  rw [decodeTrace, h]
  cases decodeChannel w <;> rfl

theorem decodeTrace_dmaw (h : TraceWord.kind w = 0x5) :
    decodeTrace w = (decodeChannel w).map (.dmaw · (TraceWord.data w)) := by
  rw [decodeTrace, h]
  cases decodeChannel w <;> rfl

theorem decodeTrace_spkd (h : TraceWord.kind w = 0x6) :
    decodeTrace w = if TraceWord.addr w ≠ 0 then .error .spkdAddrNotZero
      else if TraceWord.dataHigh w ≠ 0 then .error .spkdDataHighNotZero
      else .ok (.spkd (TraceWord.bit w)) := by
  rw [decodeTrace, h]; rfl

theorem decodeTrace_reset (h : TraceWord.kind w = 0x7) :
    decodeTrace w = if TraceWord.addr w ≠ 0 ∨ TraceWord.data w ≠ 0 then .error .resetFieldsNotZero
      else .ok .reset := by
  rw [decodeTrace, h]; rfl

theorem decodeTrace_reserved (h : 8 ≤ (TraceWord.kind w).toNat) :
    decodeTrace w = .error (.reservedKind (TraceWord.kind w)) := by
  unfold decodeTrace
  split
  iterate 8 · omega
  · rfl

end DecoderByKind

/-- The kinds of R96 to R99. -/
theorem kind_cases (k : BitVec 4) : k = 0x0 ∨ k = 0x1 ∨ k = 0x2 ∨ k = 0x3 ∨ k = 0x4 ∨ k = 0x5 ∨ k = 0x6 ∨ k = 0x7 ∨
    8 ≤ k.toNat := by
  revert k
  decide

section FieldParts

theorem portHigh_append_port (w : TraceWord) : TraceWord.portHigh w ++ TraceWord.port w = TraceWord.addr w :=
  BitVec.extractLsb'_append_extractLsb'_eq_extractLsb' rfl

theorem channelHigh_append_channel (w : TraceWord) :
    TraceWord.channelHigh w ++ TraceWord.channel w = TraceWord.addr w :=
  BitVec.extractLsb'_append_extractLsb'_eq_extractLsb' rfl

theorem dataHigh_append_bit (w : TraceWord) :
    TraceWord.dataHigh w ++ BitVec.ofBool (TraceWord.bit w) = TraceWord.data w := by
  have hb : BitVec.ofBool (TraceWord.bit w) = w.extractLsb' 0 1 := by
    ext i hi
    obtain rfl : i = 0 := by omega
    simp [TraceWord.bit]
  rw [hb]
  exact BitVec.extractLsb'_append_extractLsb'_eq_extractLsb' rfl

theorem addr_append_data (w : TraceWord) : TraceWord.addr w ++ TraceWord.data w = w.extractLsb' 0 28 :=
  BitVec.extractLsb'_append_extractLsb'_eq_extractLsb' rfl

variable {w : TraceWord}

theorem addrOfPort_port (h : TraceWord.portHigh w = 0) : addrOfPort (TraceWord.port w) = TraceWord.addr w := by
  rw [← portHigh_append_port, h]; rfl

theorem addrOfChannel_eq {c : Channel} (h : TraceWord.channelHigh w = 0) (hc : TraceWord.channel w = c.toBits) :
    addrOfChannel c = TraceWord.addr w := by
  rw [← channelHigh_append_channel, h, hc]; rfl

theorem dataOfBit_bit (h : TraceWord.dataHigh w = 0) : dataOfBit (TraceWord.bit w) = TraceWord.data w := by
  rw [← dataHigh_append_bit, h]; rfl

/-- A trace word is known by its three fields. -/
theorem makeTraceWord_eq {k : BitVec 4} {a : Address} {d : Byte} (hk : TraceWord.kind w = k)
    (ha : a = TraceWord.addr w) (hd : d = TraceWord.data w) : makeTraceWord k a d = w := by
  rw [← hk, ha, hd, makeTraceWord_fields]

end FieldParts

/-! ### The channel field -/

section ChannelField

variable {w : TraceWord}

theorem decodeChannel_highNotZero (h : TraceWord.channelHigh w ≠ 0) :
    decodeChannel w = .error .channelHighNotZero := if_pos h

theorem decodeChannel_three (h : TraceWord.channelHigh w = 0) (hc : TraceWord.channel w = 3) :
    decodeChannel w = .error .channelThree := by
  rw [decodeChannel, if_neg (not_not.mpr h), hc]; rfl

theorem decodeChannel_ok {c : Channel} (h : TraceWord.channelHigh w = 0) (hc : TraceWord.channel w = c.toBits) :
    decodeChannel w = .ok c := by
  rw [decodeChannel, if_neg (not_not.mpr h), hc, Channel.ofBits_toBits]

/-- What the channel field can say. -/
theorem decodeChannel_cases (w : TraceWord) :
    (TraceWord.channelHigh w ≠ 0 ∧ decodeChannel w = .error .channelHighNotZero) ∨
    (TraceWord.channelHigh w = 0 ∧ TraceWord.channel w = 3 ∧ decodeChannel w = .error .channelThree) ∨
    ∃ c : Channel, TraceWord.channelHigh w = 0 ∧ TraceWord.channel w = c.toBits ∧ decodeChannel w = .ok c := by
  by_cases h : TraceWord.channelHigh w = 0
  · obtain ⟨hc, -⟩ | ⟨c, hc, -⟩ := Channel.ofBits_cases (TraceWord.channel w)
    · exact .inr (.inl ⟨h, hc, decodeChannel_three h hc⟩)
    · exact .inr (.inr ⟨c, h, hc, decodeChannel_ok h hc⟩)
  · exact .inl ⟨h, decodeChannel_highNotZero h⟩

theorem addr_of_decodeChannel {c : Channel} (h : decodeChannel w = .ok c) : addrOfChannel c = TraceWord.addr w := by
  obtain ⟨-, he⟩ | ⟨-, -, he⟩ | ⟨c', hh, hc, he⟩ := decodeChannel_cases w
  · cases he.symm.trans h
  · cases he.symm.trans h
  · cases he.symm.trans h
    exact addrOfChannel_eq hh hc

theorem Channel.toBits_ne_three (c : Channel) : c.toBits ≠ 3 := by cases c <;> decide

theorem decodeChannel_accepts_iff :
    (∃ c, decodeChannel w = .ok c) ↔ TraceWord.channelHigh w = 0 ∧ TraceWord.channel w ≠ 3 := by
  obtain ⟨hh, he⟩ | ⟨hh, hc, he⟩ | ⟨c, hh, hc, he⟩ := decodeChannel_cases w
  · exact iff_of_false (by simp [he]) fun ⟨h, _⟩ => hh h
  · exact iff_of_false (by simp [he]) fun ⟨_, h⟩ => h hc
  · exact iff_of_true ⟨c, he⟩ ⟨hh, hc ▸ c.toBits_ne_three⟩

end ChannelField

/-! ### Masks over the fields -/

section Masks

/-- A mask test on a trace word is a mask test on each field. -/
theorem traceWord_and_eq_iff (w : TraceWord) {m p : TraceWord} {k k' : BitVec 4} {a a' : Address} {d d' : Byte}
    (hm : m = makeTraceWord k a d) (hp : p = makeTraceWord k' a' d') :
    w &&& m = p ↔
      TraceWord.kind w &&& k = k' ∧ TraceWord.addr w &&& a = a' ∧ TraceWord.data w &&& d = d' := by
  rw [hm, hp]
  conv_lhs => rw [← makeTraceWord_fields w]
  rw [makeTraceWord_and, makeTraceWord_inj]

theorem append_and_high {m n : Nat} (x : BitVec m) (y : BitVec n) :
    (x ++ y) &&& (BitVec.allOnes m ++ 0#n) = x ++ 0#n := by
  rw [BitVec.and_append, BitVec.and_allOnes, BitVec.and_zero]

theorem append_and_low {m n : Nat} (x : BitVec m) (y : BitVec n) :
    (x ++ y) &&& (0#m ++ BitVec.allOnes n) = 0#m ++ y := by
  rw [BitVec.and_append, BitVec.and_allOnes, BitVec.and_zero]

variable {w : TraceWord}

theorem addr_and_portHigh_iff : TraceWord.addr w &&& 0xF0000 = 0 ↔ TraceWord.portHigh w = 0 := by
  have hm : (0xF0000 : Address) = BitVec.allOnes 4 ++ 0#16 := by decide
  rw [hm, ← portHigh_append_port, append_and_high]
  exact BitVec.append_left_inj (s₂ := 0#4) 0#16

theorem addr_and_channelHigh_iff : TraceWord.addr w &&& 0xFFFFC = 0 ↔ TraceWord.channelHigh w = 0 := by
  have hm : (0xFFFFC : Address) = BitVec.allOnes 18 ++ 0#2 := by decide
  rw [hm, ← channelHigh_append_channel, append_and_high]
  exact BitVec.append_left_inj (s₂ := 0#18) 0#2

theorem addr_and_channel_iff : TraceWord.addr w &&& 0x00003 = 0x00003 ↔ TraceWord.channel w = 3 := by
  have hm : (0x00003 : Address) = 0#18 ++ BitVec.allOnes 2 := by decide
  rw [hm, ← channelHigh_append_channel, append_and_low]
  exact BitVec.append_right_inj 0#18

theorem data_and_dataHigh_iff : TraceWord.data w &&& 0xFE = 0 ↔ TraceWord.dataHigh w = 0 := by
  have hm : (0xFE : Byte) = BitVec.allOnes 7 ++ 0#1 := by decide
  rw [hm, ← dataHigh_append_bit, append_and_high]
  exact BitVec.append_left_inj (s₂ := 0#7) 0#1

theorem kind_and_all (k : BitVec 4) : k &&& 0xF = k := BitVec.and_allOnes
theorem addr_and_all (a : Address) : a &&& 0xFFFFF = a := BitVec.and_allOnes
theorem data_and_all (d : Byte) : d &&& 0xFF = d := BitVec.and_allOnes

theorem matches_memr_iff : w &&& 0xF00000FF = 0x00000000 ↔ TraceWord.kind w = 0x0 ∧ TraceWord.data w = 0 := by
  rw [traceWord_and_eq_iff w (k := 0xF) (k' := 0x0) (a := 0) (a' := 0) (d := 0xFF) (d' := 0) (by decide) (by decide),
    kind_and_all, data_and_all]
  simp

theorem matches_memw_iff : w &&& 0xF0000000 = 0x10000000 ↔ TraceWord.kind w = 0x1 := by
  rw [traceWord_and_eq_iff w (k := 0xF) (k' := 0x1) (a := 0) (a' := 0) (d := 0) (d' := 0) (by decide) (by decide),
    kind_and_all]
  simp

theorem matches_ior_iff : w &&& 0xFF0000FF = 0x20000000 ↔
    TraceWord.kind w = 0x2 ∧ TraceWord.portHigh w = 0 ∧ TraceWord.data w = 0 := by
  rw [traceWord_and_eq_iff w (k := 0xF) (k' := 0x2) (a := 0xF0000) (a' := 0) (d := 0xFF) (d' := 0) (by decide)
    (by decide), kind_and_all, addr_and_portHigh_iff, data_and_all]

theorem matches_iow_iff : w &&& 0xFF000000 = 0x30000000 ↔ TraceWord.kind w = 0x3 ∧ TraceWord.portHigh w = 0 := by
  rw [traceWord_and_eq_iff w (k := 0xF) (k' := 0x3) (a := 0xF0000) (a' := 0) (d := 0) (d' := 0) (by decide)
    (by decide), kind_and_all, addr_and_portHigh_iff]
  simp

theorem matches_dmar_iff : w &&& 0xFFFFFCFF = 0x40000000 ↔
    TraceWord.kind w = 0x4 ∧ TraceWord.channelHigh w = 0 ∧ TraceWord.data w = 0 := by
  rw [traceWord_and_eq_iff w (k := 0xF) (k' := 0x4) (a := 0xFFFFC) (a' := 0) (d := 0xFF) (d' := 0) (by decide)
    (by decide), kind_and_all, addr_and_channelHigh_iff, data_and_all]

theorem matches_dmaw_iff : w &&& 0xFFFFFC00 = 0x50000000 ↔
    TraceWord.kind w = 0x5 ∧ TraceWord.channelHigh w = 0 := by
  rw [traceWord_and_eq_iff w (k := 0xF) (k' := 0x5) (a := 0xFFFFC) (a' := 0) (d := 0) (d' := 0) (by decide)
    (by decide), kind_and_all, addr_and_channelHigh_iff]
  simp

theorem matches_spkd_iff : w &&& 0xFFFFFFFE = 0x60000000 ↔
    TraceWord.kind w = 0x6 ∧ TraceWord.addr w = 0 ∧ TraceWord.dataHigh w = 0 := by
  rw [traceWord_and_eq_iff w (k := 0xF) (k' := 0x6) (a := 0xFFFFF) (a' := 0) (d := 0xFE) (d' := 0) (by decide)
    (by decide), kind_and_all, addr_and_all, data_and_dataHigh_iff]

theorem matches_reset_iff : w &&& 0xFFFFFFFF = 0x70000000 ↔
    TraceWord.kind w = 0x7 ∧ TraceWord.addr w = 0 ∧ TraceWord.data w = 0 := by
  rw [traceWord_and_eq_iff w (k := 0xF) (k' := 0x7) (a := 0xFFFFF) (a' := 0) (d := 0xFF) (d' := 0) (by decide)
    (by decide), kind_and_all, addr_and_all, data_and_all]

theorem channelBits_eq_three_iff : w &&& 0x00000300 = 0x00000300 ↔ TraceWord.channel w = 3 := by
  rw [traceWord_and_eq_iff w (k := 0) (k' := 0) (a := 0x00003) (a' := 0x00003) (d := 0) (d' := 0) (by decide)
    (by decide), addr_and_channel_iff]
  simp

end Masks

/-! ### The accepted words and the refused ones -/

theorem exists_ok_ite_error {α ε : Type} (c : Prop) [Decidable c] (e : ε) (x : Except ε α) :
    (∃ i, (if c then .error e else x) = .ok i) ↔ ¬ c ∧ ∃ i, x = .ok i := by
  by_cases h : c <;> simp [h]

theorem map_eq_ok_iff {α β ε : Type} {f : α → β} {x : Except ε α} {b : β} :
    x.map f = .ok b ↔ ∃ a, x = .ok a ∧ f a = b := by
  cases x <;> simp [Except.map]

theorem map_eq_error_iff {α β ε : Type} {f : α → β} {x : Except ε α} {e : ε} :
    x.map f = .error e ↔ x = .error e := by
  cases x <;> simp [Except.map]

theorem exists_ok_map {α β ε : Type} (f : α → β) (x : Except ε α) :
    (∃ i, x.map f = .ok i) ↔ ∃ a, x = .ok a := by
  simp only [map_eq_ok_iff]
  exact ⟨fun ⟨_, a, h, _⟩ => ⟨a, h⟩, fun ⟨a, h⟩ => ⟨f a, a, h, rfl⟩⟩

/-- Settles O3: each kind is accepted under the conditions on its own fields, and each row of the table tests its kind
and those fields. -/
theorem traceWordAcceptedIffARowMatches : Obligations.TraceWordAcceptedIffARowMatches := by
  intro w
  rw [matches_memr_iff, matches_memw_iff, matches_ior_iff, matches_iow_iff, matches_dmar_iff, matches_dmaw_iff,
    matches_spkd_iff, matches_reset_iff, Ne, channelBits_eq_three_iff, decode]
  obtain h | h | h | h | h | h | h | h | h := kind_cases (TraceWord.kind w)
  · rw [decodeTrace_memr h, exists_ok_ite_error]
    simp [h]
  · rw [decodeTrace_memw h]
    simp [h]
  · rw [decodeTrace_ior h, exists_ok_ite_error, exists_ok_ite_error]
    simp [h, and_comm]
  · rw [decodeTrace_iow h, exists_ok_ite_error]
    simp [h]
  · rw [decodeTrace_dmar h, exists_ok_ite_error, exists_ok_map, decodeChannel_accepts_iff]
    simp [h, and_comm, and_assoc]
  · rw [decodeTrace_dmaw h, exists_ok_map, decodeChannel_accepts_iff]
    simp [h]
  · rw [decodeTrace_spkd h, exists_ok_ite_error, exists_ok_ite_error]
    simp [h]
  · rw [decodeTrace_reset h, exists_ok_ite_error]
    simp [h]
  · have other : ∀ k : BitVec 4, k.toNat < 8 → TraceWord.kind w ≠ k := fun k hk e => by rw [e] at h; omega
    rw [decodeTrace_reserved h]
    simp [other]

/-- Settles O5: each clause is the decoder's equation for that kind, with the conditions named earlier excluded. -/
theorem malformedTraceWordsAreRefusedByName : Obligations.MalformedTraceWordsAreRefusedByName := by
  refine ⟨fun w h => decodeTrace_reserved h, fun w h hd => ?memrData, fun w h hd => ?iorData,
    fun w h hd hp => ?iorPort, fun w h hp => ?iowPort, fun w h hd => ?dmarData, fun w h hd hc => ?dmarHigh,
    fun w h hd hc h3 => ?dmarThree, fun w h hc => ?dmawHigh, fun w h hc h3 => ?dmawThree, fun w h ha => ?spkdAddr,
    fun w h ha hd => ?spkdData, fun w h hf => ?reset⟩
  case memrData => exact (decodeTrace_memr h).trans (if_pos hd)
  case iorData => exact (decodeTrace_ior h).trans (if_pos hd)
  case iorPort => exact (decodeTrace_ior h).trans ((if_neg (not_not.mpr hd)).trans (if_pos hp))
  case iowPort => exact (decodeTrace_iow h).trans (if_pos hp)
  case dmarData => exact (decodeTrace_dmar h).trans (if_pos hd)
  case dmarHigh =>
    refine (decodeTrace_dmar h).trans ((if_neg (not_not.mpr hd)).trans ?_)
    rw [decodeChannel_highNotZero hc]; rfl
  case dmarThree =>
    refine (decodeTrace_dmar h).trans ((if_neg (not_not.mpr hd)).trans ?_)
    rw [decodeChannel_three hc h3]; rfl
  case dmawHigh =>
    refine (decodeTrace_dmaw h).trans ?_
    rw [decodeChannel_highNotZero hc]; rfl
  case dmawThree =>
    refine (decodeTrace_dmaw h).trans ?_
    rw [decodeChannel_three hc h3]; rfl
  case spkdAddr => exact (decodeTrace_spkd h).trans (if_pos ha)
  case spkdData => exact (decodeTrace_spkd h).trans ((if_neg (not_not.mpr ha)).trans (if_pos hd))
  case reset =>
    have hne : TraceWord.addr w ≠ 0 ∨ TraceWord.data w ≠ 0 := by
      by_contra! hz
      rw [← addr_append_data, hz.1, hz.2] at hf
      exact hf rfl
    exact (decodeTrace_reset h).trans (if_pos hne)

/-- Settles O4: thirteen fixed values, each decoded by evaluation. -/
theorem specWordsDecodeAsListed : Obligations.SpecWordsDecodeAsListed := by
  unfold Obligations.SpecWordsDecodeAsListed
  decide

/-! ### The two round trips over trace words -/

/-- Only an access to the control port has another name. -/
theorem canonical_cases (i : Instr) : i.canonical = i ∨ (i = .ior Config.ctrlPort ∧ i.canonical = .cpr) ∨
    ∃ v, i = .iow Config.ctrlPort v ∧ i.canonical = .cpw v := by
  cases i with
  | ior p =>
    by_cases hp : p = Config.ctrlPort
    · exact .inr (.inl ⟨by rw [hp], if_pos hp⟩)
    · exact .inl (if_neg hp)
  | iow p v =>
    by_cases hp : p = Config.ctrlPort
    · exact .inr (.inr ⟨v, by rw [hp], if_pos hp⟩)
    · exact .inl (if_neg hp)
  | _ => exact .inl rfl

theorem canonical_eq_self {i : Instr} (hr : i ≠ .ior 0x0061) (hw : ∀ v, i ≠ .iow 0x0061 v) : i.canonical = i := by
  obtain h | ⟨rfl, -⟩ | ⟨v, rfl, -⟩ := canonical_cases i
  · exact h
  · exact absurd rfl hr
  · exact absurd rfl (hw v)

/-- Both names are spelled alike (30_encoding.md R98). -/
theorem encode_canonical (i : Instr) : encode i.canonical = encode i := by
  obtain h | ⟨rfl, h⟩ | ⟨v, rfl, h⟩ := canonical_cases i <;> rw [h] <;> rfl

theorem wf_canonical (i : Instr) : i.canonical.wf = i.wf := by
  obtain h | ⟨rfl, h⟩ | ⟨v, rfl, h⟩ := canonical_cases i <;> rw [h] <;> rfl

/-- Whatever the decoder accepts keeps every bit of the word. -/
theorem encode_decodeTrace {w : TraceWord} {i : Instr} (h : decodeTrace w = .ok i) :
    encode i = .traceWord w ∧ i.wf = true := by
  obtain hk | hk | hk | hk | hk | hk | hk | hk | hk := kind_cases (TraceWord.kind w)
  · rw [decodeTrace_memr hk] at h
    split_ifs at h with hd
    cases h
    exact ⟨congrArg _ (makeTraceWord_eq hk rfl (not_not.mp hd).symm), rfl⟩
  · cases (decodeTrace_memw hk).symm.trans h
    exact ⟨congrArg _ (makeTraceWord_eq hk rfl rfl), rfl⟩
  · rw [decodeTrace_ior hk] at h
    split_ifs at h with hd hp
    cases h
    rw [encode_canonical, wf_canonical]
    exact ⟨congrArg _ (makeTraceWord_eq hk (addrOfPort_port (not_not.mp hp)) (not_not.mp hd).symm), rfl⟩
  · rw [decodeTrace_iow hk] at h
    split_ifs at h with hp
    cases h
    rw [encode_canonical, wf_canonical]
    exact ⟨congrArg _ (makeTraceWord_eq hk (addrOfPort_port (not_not.mp hp)) rfl), rfl⟩
  · rw [decodeTrace_dmar hk] at h
    split_ifs at h with hd
    obtain ⟨c, hc, rfl⟩ := map_eq_ok_iff.mp h
    exact ⟨congrArg _ (makeTraceWord_eq hk (addr_of_decodeChannel hc) (not_not.mp hd).symm), rfl⟩
  · rw [decodeTrace_dmaw hk] at h
    obtain ⟨c, hc, rfl⟩ := map_eq_ok_iff.mp h
    exact ⟨congrArg _ (makeTraceWord_eq hk (addr_of_decodeChannel hc) rfl), rfl⟩
  · rw [decodeTrace_spkd hk] at h
    split_ifs at h with ha hd
    cases h
    exact ⟨congrArg _ (makeTraceWord_eq hk (not_not.mp ha).symm (dataOfBit_bit (not_not.mp hd))), rfl⟩
  · rw [decodeTrace_reset hk] at h
    split_ifs at h with hf
    cases h
    obtain ⟨ha, hd⟩ := not_or.mp hf
    exact ⟨congrArg _ (makeTraceWord_eq hk (not_not.mp ha).symm (not_not.mp hd).symm), rfl⟩
  · cases (decodeTrace_reserved hk).symm.trans h

end Sys2Proof
end

