-- ==== Sys2Proof/Proofs/Rows.lean ====
section
/-! The decode rows (30_encoding.md R92 to R94) against the decode functions (20_memory.md R60, R62, R63), and the two
round trips over all four formats. -/

namespace Sys2Proof.Machine

/-! ### Memory addresses -/

/-- The row of R92 that covers an address, by its ranges. -/
def memRowOf (a : Address) : Instr :=
  if a.toNat ≤ 0x7FFFF then .memRam1 a
  else if a.toNat ≤ 0x9FFFF then .memRam2 a
  else if a.toNat ≤ 0xBFFFF then .memUnmapped3 a
  else if a.toNat ≤ 0xDFFFF then .memUnmapped4 a
  else if a.toNat ≤ 0xEFFFF then .memUnmapped5 a
  else if a.toNat ≤ 0xF7FFF then .memUnmapped6 a
  else .memRom7 a

theorem decode_memAddress (a : Address) : decode (.memAddress a) = .ok (memRowOf a) := by
  rw [decode, decodeAddress, firstRow_memRows, memRowOf]

theorem encode_memRowOf (a : Address) : encode (memRowOf a) = .memAddress a := by
  unfold memRowOf
  split_ifs <;> rfl

theorem inRange_iff (lo hi n : Nat) : Instr.inRange lo hi n = true ↔ lo ≤ n ∧ n ≤ hi := by
  simp [Instr.inRange]

theorem memRowOf_wf (a : Address) : (memRowOf a).wf = true := by
  have hl := a.isLt
  unfold memRowOf
  split_ifs <;> rw [Instr.wf, inRange_iff] <;> omega

/-- The ranges of R92 do not meet, so a well-formed memory row is the one that covers its address. -/
theorem memRowOf_eq {i : Instr} {a : Address} (he : encode i = .memAddress a) (h : i.wf = true) :
    memRowOf a = i := by
  cases i <;> cases he
  all_goals
    rw [Instr.wf, inRange_iff] at h
    simp (disch := omega) only [memRowOf, if_pos, if_neg]

theorem decode_memRow {i : Instr} {a : Address} (he : encode i = .memAddress a) (h : i.wf = true) :
    decode (.memAddress a) = .ok i := by
  rw [decode_memAddress, memRowOf_eq he h]

theorem length_filter_memRows (a : Address) : (memRows.filter fun r => a &&& r.2.1 = r.1).length = 1 := by
  have hq : a.toNat / 32768 < 32 := by have := a.isLt; omega
  simp only [memRows, ← List.countP_eq_length_filter, List.countP_cons, List.countP_nil, decide_eq_true_eq,
    address_and_eq_iff a 0x80000#20 16 (by omega) rfl, address_and_eq_iff a 0xE0000#20 28 (by omega) rfl,
    address_and_eq_iff a 0xF0000#20 30 (by omega) rfl, address_and_eq_iff a 0xF8000#20 31 (by omega) rfl]
  revert hq
  generalize a.toNat / 32768 = q
  revert q
  decide

/-- R92's select equation for RAM. -/
theorem decodeMemory_eq_ram_iff_bits (a : Address) :
    decodeMemory a = .ram ↔ a.getLsbD 19 = false ∨ a.extractLsb' 17 3 = 0b100 := by
  have hl := a.isLt
  rw [decodeMemory_eq_ram_iff, ← BitVec.toNat_inj, BitVec.extractLsb'_toNat, BitVec.getLsbD,
    Nat.testBit_eq_decide_div_mod_eq, Nat.shiftRight_eq_div_pow, decide_eq_false_iff_not,
    show (0b100 : BitVec 3).toNat = 4 from rfl]
  omega

/-- R92's select equation for ROM. -/
theorem decodeMemory_eq_rom_iff_bits (a : Address) : decodeMemory a = .rom ↔ a.extractLsb' 15 5 = 0b11111 := by
  have hl := a.isLt
  rw [decodeMemory_eq_rom_iff, ← BitVec.toNat_inj, BitVec.extractLsb'_toNat, Nat.shiftRight_eq_div_pow,
    show (0b11111 : BitVec 5).toNat = 31 from rfl]
  omega

/-- Settles O7: counting the matching rows depends on the upper five bits only. -/
theorem memoryRowsPartitionTheSpace : Obligations.MemoryRowsPartitionTheSpace := fun a =>
  ⟨length_filter_memRows a, ⟨memRowOf a, decode_memAddress a, encode_memRowOf a, memRowOf_wf a⟩,
    decodeMemory_eq_ram_iff_bits a, decodeMemory_eq_rom_iff_bits a⟩

/-! ### Ports -/

/-- The row of R93 that stands for a window. -/
def windowRow (p : Port) : RegPeripheral → Instr
  | .scsi => .ioScsi p
  | .fdc => .ioFdc p
  | .uart => .ioUart p

theorem encode_windowRow (p : Port) (d : RegPeripheral) : encode (windowRow p d) = .ioPort p := by cases d <;> rfl

theorem windowRow_wf_iff (p : Port) (d : RegPeripheral) :
    (windowRow p d).wf = true ↔ ioSelect p = .window d := by
  rw [ioSelect_eq_window_iff, Nat.lt_succ_iff]
  cases d <;> exact inRange_iff _ _ _

/-- What a bare port decodes to, by what `io_select` says of it (30_encoding.md R93). -/
def portRowOf (p : Port) : IoTarget → Except Reject Instr
  | .ctrl => .ok .ioCtrl
  | .window d => .ok (windowRow p d)
  | .unmapped => .error .portSelectsNothing

theorem decode_ioPort (p : Port) : decode (.ioPort p) = portRowOf p (ioSelect p) := by
  have hc : p.toNat = 0x0061 ↔ p = Config.ctrlPort := BitVec.toNat_inj (y := 0x0061#16)
  have hio : decodeIo p = if 0x0330 ≤ p.toNat ∧ p.toNat ≤ 0x0337 then some .scsi
      else if 0x0370 ≤ p.toNat ∧ p.toNat ≤ 0x0377 then some .fdc
      else if 0x03F8 ≤ p.toNat ∧ p.toNat ≤ 0x03FF then some .uart else none := rfl
  rw [decode, decodePort, firstRow_portRows, ioSelect, hio, if_congr hc rfl rfl]
  split_ifs <;> rfl

theorem decode_windowRow {p : Port} {d : RegPeripheral} (h : (windowRow p d).wf = true) :
    decode (.ioPort p) = .ok (windowRow p d) := by
  rw [decode_ioPort, (windowRow_wf_iff p d).mp h, portRowOf]

theorem encode_portRowOf {p : Port} {i : Instr} (h : portRowOf p (ioSelect p) = .ok i) :
    encode i = .ioPort p ∧ i.wf = true := by
  cases ht : ioSelect p with
  | ctrl =>
    rw [ht] at h
    cases h
    exact ⟨congrArg _ ((ioSelect_eq_ctrl_iff p).mp ht).symm, rfl⟩
  | window d =>
    rw [ht] at h
    cases h
    exact ⟨encode_windowRow p d, (windowRow_wf_iff p d).mpr ht⟩
  | unmapped =>
    rw [ht] at h
    cases h

/-- Settles O9: the port rows answer what `portRowOf` says of the target, which no two targets share. -/
theorem portRowsAgreeWithIoSelect : Obligations.PortRowsAgreeWithIoSelect := by
  intro p
  rw [decode_ioPort]
  refine ⟨ioSelect_eq_ctrl_iff p, ?_⟩
  cases ioSelect p with
  | ctrl => simp [portRowOf]
  | window d => cases d <;> simp [portRowOf, windowRow]
  | unmapped => simp [portRowOf]

/-! ### Channels -/

/-- The row of R94 that stands for a channel. -/
def channelRow : Channel → Instr
  | .ch0 => .dmaCh0
  | .ch1 => .dmaCh1
  | .ch2 => .dmaCh2

theorem encode_channelRow (c : Channel) : encode (channelRow c) = .dmaChannel c.toBits := by cases c <;> rfl

theorem channelRow_wf (c : Channel) : (channelRow c).wf = true := by cases c <;> rfl

theorem decode_dmaChannel_toBits (c : Channel) : decode (.dmaChannel c.toBits) = .ok (channelRow c) := by
  cases c <;> rfl

theorem decode_dmaChannel_three : decode (.dmaChannel 3) = .error .channelThree := rfl

/-! ### The round trips -/

/-- Settles O2: format by format, the decoder's answer spells the presentation back. -/
theorem encodeOfDecodeIsThePresentation : Obligations.EncodeOfDecodeIsThePresentation := by
  intro x i h
  cases x with
  | traceWord w => exact encode_decodeTrace h
  | memAddress a =>
    cases (decode_memAddress a).symm.trans h
    exact ⟨encode_memRowOf a, memRowOf_wf a⟩
  | ioPort p => exact encode_portRowOf ((decode_ioPort p).symm.trans h)
  | dmaChannel b =>
    obtain ⟨rfl, -⟩ | ⟨c, rfl, -⟩ := Channel.ofBits_cases b
    · cases decode_dmaChannel_three.symm.trans h
    · cases (decode_dmaChannel_toBits c).symm.trans h
      exact ⟨encode_channelRow c, channelRow_wf c⟩

theorem decode_encode {i : Instr} (h : i.wf = true) : decode (encode i) = .ok i.canonical := by
  cases i with
  | memr a => exact (decodeTrace_memr (kind_makeTraceWord _ _ _)).trans (by simp [Instr.canonical])
  | memw a v => exact (decodeTrace_memw (kind_makeTraceWord _ _ _)).trans (by simp [Instr.canonical])
  | ior p => exact (decodeTrace_ior (kind_makeTraceWord _ _ _)).trans (by simp)
  | iow p v => exact (decodeTrace_iow (kind_makeTraceWord _ _ _)).trans (by simp)
  | dmar c => exact (decodeTrace_dmar (kind_makeTraceWord _ _ _)).trans (by simp [Instr.canonical, Except.map])
  | dmaw c v => exact (decodeTrace_dmaw (kind_makeTraceWord _ _ _)).trans (by simp [Instr.canonical, Except.map])
  | spkd b => cases b <;> rfl
  | reset => rfl
  | cpr => rfl
  | cpw v => exact (decodeTrace_iow (kind_makeTraceWord _ _ _)).trans (by simp [Instr.canonical])
  | memRam1 a => exact decode_memRow rfl h
  | memRam2 a => exact decode_memRow rfl h
  | memUnmapped3 a => exact decode_memRow rfl h
  | memUnmapped4 a => exact decode_memRow rfl h
  | memUnmapped5 a => exact decode_memRow rfl h
  | memUnmapped6 a => exact decode_memRow rfl h
  | memRom7 a => exact decode_memRow rfl h
  | ioCtrl => rfl
  | ioScsi p => exact decode_windowRow (d := .scsi) h
  | ioFdc p => exact decode_windowRow (d := .fdc) h
  | ioUart p => exact decode_windowRow (d := .uart) h
  | dmaCh0 => exact decode_dmaChannel_toBits .ch0
  | dmaCh1 => exact decode_dmaChannel_toBits .ch1
  | dmaCh2 => exact decode_dmaChannel_toBits .ch2

/-- The two names of a control-port access mean the same (30_encoding.md R103). -/
theorem exec_canonical (i : Instr) (s : State) : exec i.canonical s = exec i s := by
  obtain h | ⟨rfl, h⟩ | ⟨v, rfl, h⟩ := canonical_cases i <;> rw [h] <;> rfl

/-- Settles O1: the encoder's word is decoded to the canonical name, which means the same. -/
theorem decodeOfEncodeIsTheInstruction : Obligations.DecodeOfEncodeIsTheInstruction := fun i h =>
  ⟨decode_encode h, canonical_eq_self, exec_canonical i⟩

end Sys2Proof.Machine
end

