-- ==== Sys2Proof/Proofs/Maps.lean ====
section
/-! The maps as record lists, offsets and counts (10_state.md R39, R40; 20_memory.md R72, R81, R64), and what the decode
rows answer (30_encoding.md R92 to R94). -/

namespace Sys2Proof.Machine

/-! ### Offsets -/

theorem romOffset_eq {a : Address} (h : 0xF8000 ≤ a.toNat) : romOffset a = BitVec.ofNat 15 (a.toNat - 0xF8000) := by
  have hl := a.isLt
  apply BitVec.eq_of_toNat_eq
  rw [romOffset, BitVec.extractLsb'_toNat, BitVec.toNat_ofNat, Nat.shiftRight_zero]
  omega

theorem regOffset_toNat {p : Port} {d : RegPeripheral} (h : ioSelect p = .window d) :
    (regOffset p).toNat = p.toNat - (Config.window d).base := by
  obtain ⟨hlo, hhi⟩ := (ioSelect_eq_window_iff p d).mp h
  have hmod : (Config.window d).base % 8 = 0 := by cases d <;> rfl
  rw [regOffset, BitVec.extractLsb'_toNat, Nat.shiftRight_zero]
  omega

theorem regOffset_eq {p : Port} {d : RegPeripheral} (h : ioSelect p = .window d) :
    regOffset p = BitVec.ofNat 3 (p.toNat - (Config.window d).base) := by
  rw [← regOffset_toNat h, BitVec.ofNat_toNat, BitVec.setWidth_eq]

/-- Settles O12: the bases are multiples of the sizes, so the low bits are the distance. -/
theorem offsetsAreDistancesFromTheBase : Obligations.OffsetsAreDistancesFromTheBase := by
  refine ⟨fun a h => ?_, fun a h => ?_, fun p => regOffset_toNat, fun p => regOffset_toNat, fun p => regOffset_toNat⟩
  · rw [ramOffset_eq]
    exact ⟨rfl, (decodeMemory_eq_ram_iff a).mp h⟩
  · have hl := a.isLt
    rw [romOffset_eq ((decodeMemory_eq_rom_iff a).mp h), BitVec.toNat_ofNat]
    omega

/-! ### The record lists -/

theorem find?_cons_eq_ite {α : Type} (p : α → Bool) (x : α) (l : List α) :
    (x :: l).find? p = if p x = true then some x else l.find? p := by
  cases h : p x <;> simp [h]

theorem regionAt_glue (a : Address) : regionAt Config.glue.regions a.toNat =
    if decodeMemory a = .ram then some Config.ramRegion
    else if decodeMemory a = .rom then some Config.romRegion else none := by
  have hl := a.isLt
  have hram : (decide (Config.ramRegion.base ≤ a.toNat) &&
      decide (a.toNat < Config.ramRegion.base + Config.ramRegion.size)) = true ↔ decodeMemory a = .ram := by
    rw [Bool.and_eq_true, decide_eq_true_iff, decide_eq_true_iff, decodeMemory_eq_ram_iff]
    change 0 ≤ a.toNat ∧ a.toNat < 0 + 0xA0000 ↔ _
    omega
  have hrom : (decide (Config.romRegion.base ≤ a.toNat) &&
      decide (a.toNat < Config.romRegion.base + Config.romRegion.size)) = true ↔ decodeMemory a = .rom := by
    rw [Bool.and_eq_true, decide_eq_true_iff, decide_eq_true_iff, decodeMemory_eq_rom_iff]
    change 0xF8000 ≤ a.toNat ∧ a.toNat < 0xF8000 + 0x08000 ↔ _
    omega
  rw [regionAt, Config.glue, find?_cons_eq_ite, find?_cons_eq_ite, List.find?_nil, if_congr hram rfl rfl,
    if_congr hrom rfl rfl]

theorem windowAt_glue (p : Port) : windowAt Config.glue.windows p.toNat = (decodeIo p).map Config.window := by
  have hcover : ∀ d, (decide ((Config.window d).base ≤ p.toNat) &&
      decide (p.toNat < (Config.window d).base + (Config.window d).size)) = true ↔ decodeIo p = some d := by
    intro d
    have hsize : (Config.window d).size = 8 := by cases d <;> rfl
    rw [Bool.and_eq_true, decide_eq_true_iff, decide_eq_true_iff, hsize, decodeIo_eq_some_iff]
  rw [windowAt, Config.glue, find?_cons_eq_ite, find?_cons_eq_ite, find?_cons_eq_ite, List.find?_nil,
    if_congr (hcover .scsi) rfl rfl, if_congr (hcover .fdc) rfl rfl, if_congr (hcover .uart) rfl rfl]
  rcases decodeIo p with _ | d
  · rfl
  · cases d <;> rfl

/-- Settles O11: a record covers what the decode function sends to it. -/
theorem decodeFunctionsAreTheRecordLists : Obligations.DecodeFunctionsAreTheRecordLists := by
  constructor
  · intro a
    rw [regionAt_glue]
    cases decodeMemory a <;> rfl
  · intro p
    rw [windowAt_glue]
    rcases decodeIo p with _ | d
    · rfl
    · cases d <;> rfl

/-! ### Counts -/

theorem card_filter_range {N lo hi : Nat} {P : Nat → Prop} [DecidablePred P] (hN : hi ≤ N)
    (h : ∀ n < N, (P n ↔ lo ≤ n ∧ n < hi)) : ((Finset.range N).filter P).card = hi - lo := by
  have hIco : (Finset.range N).filter P = Finset.Ico lo hi := by
    ext n
    rw [Finset.mem_filter, Finset.mem_range, Finset.mem_Ico]
    exact ⟨fun ⟨hn, hp⟩ => (h n hn).mp hp, fun hn => have hlt := hn.2.trans_le hN; ⟨hlt, (h n hlt).mpr hn⟩⟩
  rw [hIco, Nat.card_Ico]

theorem toNat_address {n : Nat} (h : n < 0x100000) : (BitVec.ofNat 20 n).toNat = n := Nat.mod_eq_of_lt h

theorem toNat_port {n : Nat} (h : n < 0x10000) : (BitVec.ofNat 16 n).toNat = n := Nat.mod_eq_of_lt h

/-- The ports of the three windows. -/
def windowPorts : Finset Nat := Finset.Ico 0x330 0x338 ∪ (Finset.Ico 0x370 0x378 ∪ Finset.Ico 0x3F8 0x400)

theorem card_windowPorts : windowPorts.card = 24 := by decide

theorem card_insert_ctrlPort_windowPorts : (insert 0x61 windowPorts).card = 25 := by decide

theorem decodeIo_isSome_iff {n : Nat} (h : n < 0x10000) :
    (decodeIo (BitVec.ofNat 16 n)).isSome = true ↔ n ∈ windowPorts := by
  simp only [Option.isSome_iff_exists, decodeIo_eq_some_iff, toNat_port h, windowPorts, Finset.mem_union,
    Finset.mem_Ico]
  constructor
  · rintro ⟨d, hd⟩
    cases d with
    | scsi => exact .inl hd
    | fdc => exact .inr (.inl hd)
    | uart => exact .inr (.inr hd)
  · rintro (hd | hd | hd)
    · exact ⟨.scsi, hd⟩
    · exact ⟨.fdc, hd⟩
    · exact ⟨.uart, hd⟩

theorem filter_isSome_eq_windowPorts :
    ((Finset.range 0x10000).filter fun n => (decodeIo (BitVec.ofNat 16 n)).isSome) = windowPorts := by
  have hlt : ∀ n ∈ windowPorts, n < 0x10000 := by decide
  ext n
  rw [Finset.mem_filter, Finset.mem_range]
  exact ⟨fun ⟨hn, hs⟩ => (decodeIo_isSome_iff hn).mp hs, fun hn => ⟨hlt n hn, (decodeIo_isSome_iff (hlt n hn)).mpr hn⟩⟩

theorem ioSelect_eq_unmapped_iff (p : Port) :
    ioSelect p = .unmapped ↔ p ≠ Config.ctrlPort ∧ (decodeIo p).isSome = false := by
  unfold ioSelect
  by_cases hc : p = Config.ctrlPort
  · simp [hc]
  · cases decodeIo p <;> simp [hc]

theorem ofNat_eq_ctrlPort_iff {n : Nat} (h : n < 0x10000) : BitVec.ofNat 16 n = Config.ctrlPort ↔ n = 0x61 := by
  rw [← BitVec.toNat_inj, toNat_port h]
  rfl

theorem filter_unmapped_eq_sdiff : ((Finset.range 0x10000).filter fun n => ioSelect (BitVec.ofNat 16 n) = .unmapped) =
    Finset.range 0x10000 \ insert 0x61 windowPorts := by
  ext n
  rw [Finset.mem_filter, Finset.mem_sdiff, Finset.mem_range, Finset.mem_insert, ioSelect_eq_unmapped_iff]
  refine and_congr_right fun hn => ?_
  rw [Ne, ofNat_eq_ctrlPort_iff hn, Bool.eq_false_iff, Ne, decodeIo_isSome_iff hn, not_or]

theorem card_unmappedPorts : (Finset.range 0x10000 \ insert 0x61 windowPorts).card = 65511 := by
  have hsub : insert 0x61 windowPorts ⊆ Finset.range 0x10000 := by
    intro n hn
    rw [Finset.mem_range]
    exact (show ∀ n ∈ insert 0x61 windowPorts, n < 0x10000 by decide) n hn
  rw [Finset.card_sdiff_of_subset hsub, Finset.card_range, card_insert_ctrlPort_windowPorts]

/-- Settles O10: regions are intervals; the ports that are not Unmapped are those of the windows and one more. -/
theorem regionAndPortCounts : Obligations.RegionAndPortCounts := by
  refine ⟨card_filter_range (lo := 0) (hi := 0xA0000) (by decide) fun n hn => ?ram,
    card_filter_range (lo := 0xF8000) (hi := 0x100000) (by decide) fun n hn => ?rom,
    card_filter_range (lo := 0xA0000) (hi := 0xF8000) (by decide) fun n hn => ?unmapped,
    (congrArg Finset.card filter_isSome_eq_windowPorts).trans card_windowPorts,
    card_filter_range (lo := 0x61) (hi := 0x62) (by decide) fun n hn => ?ctrl,
    (congrArg Finset.card filter_unmapped_eq_sdiff).trans card_unmappedPorts⟩
  case ram => rw [decodeMemory_eq_ram_iff, toNat_address hn]; omega
  case rom => rw [decodeMemory_eq_rom_iff, toNat_address hn]; omega
  case unmapped => rw [decodeMemory_eq_unmapped_iff, toNat_address hn]; omega
  case ctrl => rw [ioSelect_eq_ctrl_iff, ofNat_eq_ctrlPort_iff hn]; omega

/-! ### What the decode rows answer -/

theorem exec_memRow {i : Instr} {a : Address} (he : encode i = .memAddress a) (s : State) :
    exec i s = .next (s.answerLookup (selectMemory a)) := by
  cases i <;> cases he <;> rfl

theorem exec_windowRow (p : Port) (d : RegPeripheral) (s : State) :
    exec (windowRow p d) s = .next (s.answerLookup (selectPort p)) := by
  cases d <;> rfl

theorem exec_windowRow_wf {p : Port} {d : RegPeripheral} (h : (windowRow p d).wf = true) (s : State) :
    exec (windowRow p d) s =
      .next (s.answerLookup (.window (Config.window d) (BitVec.ofNat 3 (p.toNat - (Config.window d).base)))) := by
  have hd := (windowRow_wf_iff p d).mp h
  rw [exec_windowRow, selectPort, hd, ← regOffset_eq hd]

theorem selectMemory_ram {a : Address} (h : a.toNat ≤ 0x9FFFF) : selectMemory a = .ram Config.ramRegion a := by
  rw [selectMemory, decodeMemory_ram h, ramOffset_eq]

theorem selectMemory_rom {a : Address} (h : 0xF8000 ≤ a.toNat) :
    selectMemory a = .rom Config.romRegion (BitVec.ofNat 15 (a.toNat - 0xF8000)) := by
  rw [selectMemory, decodeMemory_rom h, ← romOffset_eq h]

theorem selectMemory_unmapped {a : Address} (h : 0xA0000 ≤ a.toNat) (h' : a.toNat ≤ 0xF7FFF) :
    selectMemory a = .unmapped := by
  rw [selectMemory, decodeMemory_unmapped h h']

/-- Settles O33: each row's range lies in one region. -/
theorem memoryRowsAnswerTheirRegion : Obligations.MemoryRowsAnswerTheirRegion := by
  intro s a
  refine ⟨fun h => ?_, fun h => ?_, fun h => ?_, fun h => ?_, fun h => ?_, fun h => ?_, fun h => ?_⟩ <;>
    rw [Instr.wf, inRange_iff] at h <;> rw [exec_memRow rfl]
  · rw [selectMemory_ram (by omega)]; rfl
  · rw [selectMemory_ram (by omega)]; rfl
  · rw [selectMemory_unmapped (by omega) (by omega)]; rfl
  · rw [selectMemory_unmapped (by omega) (by omega)]; rfl
  · rw [selectMemory_unmapped (by omega) (by omega)]; rfl
  · rw [selectMemory_unmapped (by omega) (by omega)]; rfl
  · rw [selectMemory_rom (by omega)]; rfl

/-- Settles O34: the three windows are one lemma. -/
theorem portRowsAnswerTheirTarget : Obligations.PortRowsAnswerTheirTarget := fun s =>
  ⟨rfl, fun _ => ⟨fun h => exec_windowRow_wf (d := .scsi) h s, fun h => exec_windowRow_wf (d := .fdc) h s,
    fun h => exec_windowRow_wf (d := .uart) h s⟩⟩

theorem exec_channelRow (c : Channel) (s : State) :
    exec (channelRow c) s = .next (s.answerLookup (.dma (Config.dmaBind c))) := by
  cases c <;> rfl

/-- Settles O35: the router answers the binding of the row's channel. -/
theorem channelRowsAnswerTheirPeripheral : Obligations.ChannelRowsAnswerTheirPeripheral := fun s =>
  ⟨exec_channelRow .ch0 s, exec_channelRow .ch1 s, exec_channelRow .ch2 s, rfl, rfl, rfl⟩

end Sys2Proof.Machine
end

