-- ==== Sys2Proof/Proofs/Cycles.lean ====
section
/-! Memory, I/O and DMA cycles (40_address_decode.md R130 to R137, 41_dma_router.md R160 to R165): one equation per
cycle and target, and what follows from them. -/

namespace Sys2Proof.Machine

/-! ### One equation per cycle and target -/

theorem exec_memr_ram {a : Address} (h : decodeMemory a = .ram) (s : State) :
    exec (.memr a) s = .next (s.observe (some (s.ramByte a)) (some .ramSel) (some (.ramRead a))) := by
  simp only [exec, execMemr, h, memByte_ram s h, ramOffset_eq]

theorem exec_memr_rom {a : Address} (h : decodeMemory a = .rom) (s : State) :
    exec (.memr a) s =
      .next (s.observe (some (Config.romImage (romOffset a))) (some .romSel) (some (.romRead (romOffset a)))) := by
  simp only [exec, execMemr, State.memByte, h]

theorem exec_memr_unmapped {a : Address} (h : decodeMemory a = .unmapped) (s : State) :
    exec (.memr a) s = .next (s.observe (some Config.openBusMem) none none) := by
  simp only [exec, execMemr, State.memByte, h]

theorem exec_memw_ram {a : Address} (h : decodeMemory a = .ram) (v : Byte) (s : State) :
    exec (.memw a v) s =
      .next ((s.writeRam (ramOffset a) v).observe none (some .ramSel) (some (.ramWrite (ramOffset a) v))) := by
  simp only [exec, execMemw, h]

theorem exec_memw_rom {a : Address} (h : decodeMemory a = .rom) (v : Byte) (s : State) :
    exec (.memw a v) s = .next (s.observe none (some .romSel) none) := by
  simp only [exec, execMemw, h]

theorem exec_ior_ctrl {p : Port} (h : ioSelect p = .ctrl) (s : State) : exec (.ior p) s = .next s.controlRead := by
  simp only [exec, execIor, h]

theorem exec_ior_window {p : Port} {d : RegPeripheral} (h : ioSelect p = .window d) (s : State) :
    exec (.ior p) s = .next (s.peripheralRead (windowSelect d) (.regRead d.peripheral (regOffset p))) := by
  simp only [exec, execIor, h]

theorem exec_ior_unmapped {p : Port} (h : ioSelect p = .unmapped) (s : State) :
    exec (.ior p) s = .next (s.observe (some Config.openBusIo) none none) := by
  simp only [exec, execIor, h]

theorem exec_iow_ctrl {p : Port} (h : ioSelect p = .ctrl) (v : Byte) (s : State) :
    exec (.iow p v) s = .next (s.controlWrite v) := by
  simp only [exec, execIow, h]

theorem exec_iow_window {p : Port} {d : RegPeripheral} (h : ioSelect p = .window d) (v : Byte) (s : State) :
    exec (.iow p v) s = .next (s.peripheralWrite (windowSelect d) (.regWrite d.peripheral (regOffset p) v)) := by
  simp only [exec, execIow, h]

theorem exec_dmar (c : Channel) (s : State) : exec (.dmar c) s =
    .next (s.peripheralRead (dmaSelect (Config.dmaBind c)) (.dmaRead (Config.dmaBind c).peripheral)) := rfl

theorem exec_dmaw (c : Channel) (v : Byte) (s : State) : exec (.dmaw c v) s =
    .next (s.peripheralWrite (dmaSelect (Config.dmaBind c)) (.dmaWrite (Config.dmaBind c).peripheral v)) := rfl

/-- A window by its first and its last port, as R62 gives it. -/
theorem ioSelect_window {p : Port} (d : RegPeripheral) (hlo : (Config.window d).base ≤ p.toNat)
    (hhi : p.toNat ≤ (Config.window d).base + 7) : ioSelect p = .window d :=
  (ioSelect_eq_window_iff p d).mpr ⟨hlo, Nat.lt_succ_of_le hhi⟩

/-! ### Memory cycles -/

/-- Settles O13: each range of R60 has its own equation. -/
theorem memrReturnsTheSelectedByte : Obligations.MemrReturnsTheSelectedByte := fun s _ =>
  ⟨fun h => exec_memr_ram (decodeMemory_ram h) s, fun h => exec_memr_rom (decodeMemory_rom h) s,
    fun h h' => exec_memr_unmapped (decodeMemory_unmapped h h') s⟩

/-- Settles O14: reading back is the law of RAM; the other fields are the frame of a RAM write. -/
theorem memwToRamStoresOneByte : Obligations.MemwToRamStoresOneByte := by
  intro s a v ha
  have hram := decodeMemory_ram ha
  have hmem : ∀ b, ((s.writeRam (ramOffset a) v).observe none (some .ramSel)
      (some (.ramWrite (ramOffset a) v))).memByte b = if b = a then v else s.memByte b := fun b =>
    (State.memByte_congr _ _ (by rfl) b).trans (memByte_writeRam s v hram b)
  refine ⟨_, exec_memw_ram hram v s, (hmem a).trans (if_pos rfl), fun b hb => (hmem b).trans (if_neg hb),
    ⟨rfl, rfl, rfl⟩, ⟨rfl, rfl, rfl, rfl⟩, rfl, ?_⟩
  rw [ramOffset_eq]
  rfl

/-- Settles O16: a ROM write selects and calls nothing. -/
theorem romWritesAreDiscarded : Obligations.RomWritesAreDiscarded := fun s _ v h =>
  exec_memw_rom (decodeMemory_rom h) v s

/-! ### I/O cycles -/

/-- Settles O17: outside the three windows and off the control port nothing is selected. -/
theorem unmappedPortReadsOpenBus : Obligations.UnmappedPortReadsOpenBus := by
  intro s p hctrl hscsi hfdc huart
  have hnone : decodeIo p = none := by
    rw [decodeIo_eq_none_iff]
    intro d
    cases d with
    | scsi => exact hscsi
    | fdc => exact hfdc
    | uart => exact huart
  exact exec_ior_unmapped (ioSelect_eq_unmapped hctrl hnone) s

theorem exec_ior_window_range {p : Port} (d : RegPeripheral) (hlo : (Config.window d).base ≤ p.toNat)
    (hhi : p.toNat ≤ (Config.window d).base + 7) (s : State) :
    exec (.ior p) s = .next (s.peripheralRead (windowSelect d)
      (.regRead d.peripheral (BitVec.ofNat 3 (p.toNat - (Config.window d).base)))) := by
  have hd := ioSelect_window d hlo hhi
  rw [exec_ior_window hd, regOffset_eq hd]

theorem exec_iow_window_range {p : Port} (d : RegPeripheral) (hlo : (Config.window d).base ≤ p.toNat)
    (hhi : p.toNat ≤ (Config.window d).base + 7) (v : Byte) (s : State) :
    exec (.iow p v) s = .next (s.peripheralWrite (windowSelect d)
      (.regWrite d.peripheral (BitVec.ofNat 3 (p.toNat - (Config.window d).base)) v)) := by
  have hd := ioSelect_window d hlo hhi
  rw [exec_iow_window hd, regOffset_eq hd]

/-- Settles O18: one equation for the three windows. -/
theorem windowReadsArePassedThrough : Obligations.WindowReadsArePassedThrough := fun s _ =>
  ⟨fun hlo hhi => exec_ior_window_range .scsi hlo hhi s, fun hlo hhi => exec_ior_window_range .fdc hlo hhi s,
    fun hlo hhi => exec_ior_window_range .uart hlo hhi s⟩

/-- Settles O19: one equation for the three windows. -/
theorem windowWritesArePassedThrough : Obligations.WindowWritesArePassedThrough := fun s _ v =>
  ⟨fun hlo hhi => exec_iow_window_range .scsi hlo hhi v s, fun hlo hhi => exec_iow_window_range .fdc hlo hhi v s,
    fun hlo hhi => exec_iow_window_range .uart hlo hhi v s⟩

/-! ### The select of a cycle is that of its address or port -/

section Selects

variable {a : Address} {p : Port} {v : Byte} {s t : State}

theorem memr_select (h : exec (.memr a) s = .next t) :
    t.log.head?.map LogEntry.select? = some (selectMemory a).select := by
  cases hd : decodeMemory a with
  | ram => cases (exec_memr_ram hd s).symm.trans h; rw [selectMemory, hd]; rfl
  | rom => cases (exec_memr_rom hd s).symm.trans h; rw [selectMemory, hd]; rfl
  | unmapped => cases (exec_memr_unmapped hd s).symm.trans h; rw [selectMemory, hd]; rfl

theorem memw_select (h : exec (.memw a v) s = .next t) :
    t.log.head?.map LogEntry.select? = some (selectMemory a).select := by
  cases hd : decodeMemory a with
  | ram => cases (exec_memw_ram hd v s).symm.trans h; rw [selectMemory, hd]; rfl
  | rom => cases (exec_memw_rom hd v s).symm.trans h; rw [selectMemory, hd]; rfl
  | unmapped => cases (exec_memw_unmapped hd v s).symm.trans h; rw [selectMemory, hd]; rfl

theorem select_window (d : RegPeripheral) (off : RegOffset) :
    (Selection.window (Config.window d) off).select = some (windowSelect d) := by
  cases d <;> rfl

theorem ior_select (h : exec (.ior p) s = .next t) :
    t.log.head?.map LogEntry.select? = some (selectPort p).select := by
  cases hd : ioSelect p with
  | ctrl => cases (exec_ior_ctrl hd s).symm.trans h; rw [selectPort, hd]; rfl
  | window d => cases (exec_ior_window hd s).symm.trans h; rw [selectPort, hd, select_window]; rfl
  | unmapped => cases (exec_ior_unmapped hd s).symm.trans h; rw [selectPort, hd]; rfl

theorem iow_select (h : exec (.iow p v) s = .next t) :
    t.log.head?.map LogEntry.select? = some (selectPort p).select := by
  cases hd : ioSelect p with
  | ctrl => cases (exec_iow_ctrl hd v s).symm.trans h; rw [selectPort, hd]; rfl
  | window d => cases (exec_iow_window hd v s).symm.trans h; rw [selectPort, hd, select_window]; rfl
  | unmapped => cases (exec_iow_unmapped hd v s).symm.trans h; rw [selectPort, hd]; rfl

end Selects

/-- Settles O20: either way it is the select of what the select logic answers for the address or port. -/
theorem selectDependsOnTheAddressOnly : Obligations.SelectDependsOnTheAddressOnly :=
  ⟨fun _ _ _ _ _ _ h h' => (memr_select h).trans (memw_select h').symm,
    fun _ _ _ _ _ _ h h' => (ior_select h).trans (iow_select h').symm⟩

/-! ### DMA cycles and the peripherals -/

/-- Settles O21: the equations of the two operations at the three bindings. -/
theorem dmaGoesToTheBoundPeripheral : Obligations.DmaGoesToTheBoundPeripheral := fun s v =>
  ⟨exec_dmar .ch0 s, exec_dmar .ch1 s, exec_dmar .ch2 s, exec_dmaw .ch0 v s, exec_dmaw .ch1 v s, exec_dmaw .ch2 v s⟩

/-- The peripheral behind a port, if a window covers it. -/
def portPeripheral (p : Port) : Option Peripheral :=
  match ioSelect p with
  | .window d => some d.peripheral
  | _ => none

/-- The peripheral an instruction calls. -/
def calledPeripheral : Instr → Option Peripheral
  | .ior p => portPeripheral p
  | .iow p _ => portPeripheral p
  | .dmar c => some (Config.dmaBind c).peripheral
  | .dmaw c _ => some (Config.dmaBind c).peripheral
  | _ => none

theorem portPeripheral_eq_some_iff (p : Port) (q : Peripheral) :
    portPeripheral p = some q ↔ ∃ d, ioSelect p = .window d ∧ d.peripheral = q := by
  unfold portPeripheral
  cases ioSelect p <;> simp

theorem lastCallIsOn_iff {i : Instr} {s t : State} (h : exec i s = .next t) (q : Peripheral) :
    t.lastCallIsOn q ↔ calledPeripheral i = some q := by
  cases i with
  | memr a =>
    cases hd : decodeMemory a with
    | ram => cases (exec_memr_ram hd s).symm.trans h; simp [calledPeripheral, Call.peripheral?]
    | rom => cases (exec_memr_rom hd s).symm.trans h; simp [calledPeripheral, Call.peripheral?]
    | unmapped => cases (exec_memr_unmapped hd s).symm.trans h; simp [calledPeripheral]
  | memw a v =>
    cases hd : decodeMemory a with
    | ram => cases (exec_memw_ram hd v s).symm.trans h; simp [calledPeripheral, Call.peripheral?]
    | rom => cases (exec_memw_rom hd v s).symm.trans h; simp [calledPeripheral]
    | unmapped => cases (exec_memw_unmapped hd v s).symm.trans h; simp [calledPeripheral]
  | ior p =>
    cases hd : ioSelect p with
    | ctrl => cases (exec_ior_ctrl hd s).symm.trans h; simp [calledPeripheral, portPeripheral, hd]
    | window d =>
      cases (exec_ior_window hd s).symm.trans h; simp [calledPeripheral, portPeripheral, hd, Call.peripheral?]
    | unmapped => cases (exec_ior_unmapped hd s).symm.trans h; simp [calledPeripheral, portPeripheral, hd]
  | iow p v =>
    cases hd : ioSelect p with
    | ctrl => cases (exec_iow_ctrl hd v s).symm.trans h; simp [calledPeripheral, portPeripheral, hd]
    | window d =>
      cases (exec_iow_window hd v s).symm.trans h; simp [calledPeripheral, portPeripheral, hd, Call.peripheral?]
    | unmapped => cases (exec_iow_unmapped hd v s).symm.trans h; simp [calledPeripheral, portPeripheral, hd]
  | dmar c => cases (exec_dmar c s).symm.trans h; simp [calledPeripheral, Call.peripheral?]
  | dmaw c v => cases (exec_dmaw c v s).symm.trans h; simp [calledPeripheral, Call.peripheral?]
  | _ => cases h; simp [calledPeripheral]

theorem calledPeripheral_eq_some_iff (i : Instr) (q : Peripheral) : calledPeripheral i = some q ↔
    (∃ p, portPeripheral p = some q ∧ (i = .ior p ∨ ∃ v, i = .iow p v)) ∨
    ∃ c, (Config.dmaBind c).peripheral = q ∧ (i = .dmar c ∨ ∃ v, i = .dmaw c v) := by
  cases i <;> simp [calledPeripheral]

theorem portPeripheral_eq_window_iff (p : Port) (d : RegPeripheral) : portPeripheral p = some d.peripheral ↔
    (Config.window d).base ≤ p.toNat ∧ p.toNat ≤ (Config.window d).base + 7 := by
  have inj : ∀ d', d'.peripheral = d.peripheral ↔ d' = d := by cases d <;> rintro (_ | _ | _) <;> decide
  rw [portPeripheral_eq_some_iff, mem_window_iff_decodeIo, decodeIo_eq_some_iff, ← ioSelect_eq_window_iff]
  simp [inj]

theorem portPeripheral_ne_xbus (p : Port) : portPeripheral p ≠ some .xbus := by
  rw [Ne, portPeripheral_eq_some_iff]
  rintro ⟨d, -, hd⟩
  cases d <;> cases hd

theorem exists_portPeripheral_iff (d : RegPeripheral) (P : Port → Prop) :
    (∃ p, portPeripheral p = some d.peripheral ∧ P p) ↔
      ∃ p : Port, (Config.window d).base ≤ p.toNat ∧ p.toNat ≤ (Config.window d).base + 7 ∧ P p := by
  simp only [portPeripheral_eq_window_iff, and_assoc]

theorem exists_dmaBind_iff (c : Channel) (P : Channel → Prop) :
    (∃ c', (Config.dmaBind c').peripheral = (Config.dmaBind c).peripheral ∧ P c') ↔ P c := by
  have inj : ∀ c', (Config.dmaBind c').peripheral = (Config.dmaBind c).peripheral ↔ c' = c := by
    cases c <;> rintro (_ | _ | _) <;> decide
  simp only [inj, exists_eq_left]

theorem dmaBind_ne_uart (c : Channel) : (Config.dmaBind c).peripheral ≠ .uart := by cases c <;> decide

/-- Settles O56: a peripheral is called through its window or through its channel; the UART has no channel and the
expansion bus no window. -/
theorem eachPeripheralIsOneCollaborator : Obligations.EachPeripheralIsOneCollaborator := by
  intro i s t h
  simp only [lastCallIsOn_iff h, calledPeripheral_eq_some_iff]
  refine ⟨or_congr (exists_portPeripheral_iff .scsi _) (exists_dmaBind_iff .ch2 _),
    or_congr (exists_portPeripheral_iff .fdc _) (exists_dmaBind_iff .ch1 _),
    (or_iff_left ?uart).trans (exists_portPeripheral_iff .uart _),
    (or_iff_right ?xbus).trans (exists_dmaBind_iff .ch0 _)⟩
  case uart => exact fun ⟨c, hc, _⟩ => dmaBind_ne_uart c hc
  case xbus => exact fun ⟨p, hp, _⟩ => portPeripheral_ne_xbus p hp

end Sys2Proof.Machine
end

