-- ==== Sys2Proof/Proofs/Latch.lean ====
section
/-! The control-port operations (42_control_port.md R182 to R192): frames, idempotence, and the closed form. -/

namespace Sys2Proof.Machine

theorem exec_spkd (b : Bool) (s : State) :
    exec (.spkd b) s = .next ((s.recordData b).observe none none none) := rfl

theorem exec_cpr (s : State) : exec .cpr s = .next s.controlRead := rfl

/-- A write that keeps the enable bit keeps the level, whichever way the bit stands. -/
theorem speakerAfterWrite_self (e d o : Bool) : speakerAfterWrite e e d o = o := by cases e <;> rfl

/-- Settles O23: port 0x0061 selects the control port, so `IOW` there is the same write. -/
theorem controlWriteFrame : Obligations.ControlWriteFrame := fun s v =>
  ⟨s.controlWrite v, exec_cpw v s, exec_iow_ctrl ioSelect_ctrlPort v s, rfl, State.memByte_congr s _ rfl, rfl,
    ⟨rfl, rfl, rfl, rfl⟩, rfl, rfl⟩

/-- Settles O24: the read records the latch; port 0x0061 selects the control port, so `IOR` there is the same read. -/
theorem controlReadReturnsTheLatch : Obligations.ControlReadReturnsTheLatch := by
  refine ⟨by decide, fun s => ⟨exec_cpr s, exec_ior_ctrl ioSelect_ctrlPort s⟩, rfl, fun s t h => ?_⟩
  cases (exec_reset s).symm.trans h
  rfl

/-- Settles O25: the words of the two bits by evaluation, the rest is the meaning of `SPKD`. -/
theorem speakerDataIsRecordedAndGated : Obligations.SpeakerDataIsRecordedAndGated := by
  refine ⟨fun b => ?_, fun s b => exec_spkd b s⟩
  cases b <;> decide

/-- Settles O26: of the two rows of the table that end disabled, one silences the speaker and one leaves it alone. -/
theorem resetIsAWriteOfZero : Obligations.ResetIsAWriteOfZero := by
  refine ⟨by decide, fun s => ⟨_, s.controlWrite 0x00, exec_reset s, exec_cpw 0x00 s, ⟨rfl, rfl, rfl⟩, rfl, rfl, ?_,
    State.memByte_congr s _ rfl, rfl, ⟨rfl, rfl, rfl, rfl⟩, rfl, rfl⟩⟩
  rw [State.observe_out, State.machineReset_out, enableBit_latchReset, State.enable, enableBit_eq]
  cases s.latch.getLsbD 1 <;> rfl

/-- Settles O28: the second write keeps the enable bit. -/
theorem controlWriteIsIdempotent : Obligations.ControlWriteIsIdempotent := fun s v =>
  ⟨s.controlWrite v, (s.controlWrite v).controlWrite v, exec_cpw v s, exec_cpw v _,
    ⟨rfl, rfl, speakerAfterWrite_self (enableBit v) _ _⟩, rfl, rfl⟩

/-- Settles O29: the level and the two outputs read bits 1 and 0 alone. -/
theorem storedBitsHaveNoEffect : Obligations.StoredBitsHaveNoEffect := by
  intro s v w h
  have bit : ∀ i < 2, v.getLsbD i = w.getLsbD i := by
    intro i hi
    have := congrArg (BitVec.getLsbD · i) h
    simpa [hi] using this
  exact ⟨_, _, exec_cpw v s, exec_cpw w s, State.writeLatch_out_congr s (bit 1 (by decide)), rfl, bit 0 (by decide),
    bit 1 (by decide), rfl, rfl⟩

/-! ### The closed form `O = L[1] & D` -/

/-- The closed form speaks of the latch, the data bit and the level alone. -/
theorem State.Closed.congr {s t : State} (hs : s.Closed) (hl : t.latch = s.latch) (hd : t.data = s.data)
    (ho : t.out = s.out) : t.Closed := by
  simp only [State.Closed, State.enable, hl, hd, ho]
  exact hs

theorem speakerAfterWrite_closed (e e' d : Bool) : speakerAfterWrite e e' d (e && d) = (e' && d) := by
  cases e <;> cases e' <;> rfl

theorem speakerAfterData_closed (e b d : Bool) : speakerAfterData e b (e && d) = (e && b) := by cases e <;> rfl

theorem State.Closed.controlWrite_out {s : State} (hs : s.Closed) (v : Byte) :
    (s.controlWrite v).out = (enableBit v && s.data) := by
  rw [State.controlWrite_out, hs, speakerAfterWrite_closed]

theorem State.Closed.recordData_out {s : State} (hs : s.Closed) (b : Bool) :
    (s.recordData b).out = (s.enable && b) := by
  rw [State.recordData_out, hs, speakerAfterData_closed]

theorem State.Closed.controlWrite {s : State} (hs : s.Closed) (v : Byte) : (s.controlWrite v).Closed :=
  hs.controlWrite_out v

theorem State.Closed.recordData {s : State} (hs : s.Closed) (b : Bool) : (s.recordData b).Closed :=
  hs.recordData_out b

/-- Settles O30: the table and the gate, at a level that has the closed form. -/
theorem closedFormIsKeptByWritesAndData : Obligations.ClosedFormIsKeptByWritesAndData := fun s hs =>
  ⟨fun v => ⟨_, exec_cpw v s, hs.controlWrite_out v, hs.controlWrite v⟩,
    fun b => ⟨_, exec_spkd b s, hs.recordData_out b, hs.recordData b⟩⟩

/-- Settles O31: in either order the level is the closed form of the last latch and the last data bit. -/
theorem writeAndDataChangeCommute : Obligations.WriteAndDataChangeCommute := by
  intro s v b hs
  have hcs : ((s.controlWrite v).recordData b).out = (enableBit v && b) := (hs.controlWrite v).recordData_out b
  have hsc : ((s.recordData b).controlWrite v).out = (enableBit v && b) := (hs.recordData b).controlWrite_out v
  exact ⟨_, _, rfl, rfl, ⟨rfl, rfl, hsc.trans hcs.symm⟩, rfl, rfl, hcs, State.memByte_congr _ _ rfl,
    ⟨rfl, rfl, rfl, rfl⟩⟩

end Sys2Proof.Machine
end

