-- ==== Sys2Proof/Proofs/Frames.lean ====
section
/-! What changes what, over all instructions (10_state.md R31 to R33, R42; 43_composition_root.md R224, R225). Each
frame is read off the eight shapes of `exec_cases`. -/

namespace Sys2Proof.Machine

variable {i : Instr} {s t : State}

theorem exec_latch (h : exec i s = .next t) : t.latch = s.latch ∨ writesControlPort i = true ∨ i = .reset := by
  obtain ⟨_, _, _, rfl⟩ | ⟨_, rfl⟩ | ⟨_, _, rfl⟩ | ⟨_, _, rfl⟩ | ⟨_, _, _, _, rfl⟩ | ⟨_, hi, _⟩ | ⟨_, _, rfl⟩ | ⟨hi, _⟩ :=
    exec_cases h
  · exact .inl rfl
  · exact .inl rfl
  · exact .inl rfl
  · exact .inl rfl
  · exact .inl rfl
  · obtain rfl | rfl := hi <;> exact .inr (.inl rfl)
  · exact .inl rfl
  · exact .inr (.inr hi)

theorem exec_data (h : exec i s = .next t) : t.data = s.data ∨ ∃ b, i = .spkd b := by
  obtain ⟨_, _, _, rfl⟩ | ⟨_, rfl⟩ | ⟨_, _, rfl⟩ | ⟨_, _, rfl⟩ | ⟨_, _, _, _, rfl⟩ | ⟨_, _, rfl⟩ | ⟨b, hi, _⟩ | ⟨_, rfl⟩ :=
    exec_cases h
  · exact .inl rfl
  · exact .inl rfl
  · exact .inl rfl
  · exact .inl rfl
  · exact .inl rfl
  · exact .inl rfl
  · exact .inr ⟨b, hi⟩
  · exact .inl rfl

/-- A write of the control port that keeps bit 1 keeps the level. -/
theorem State.controlWrite_out_of_enable_eq {v : Byte} (h : (s.controlWrite v).enable = s.enable) :
    (s.controlWrite v).out = s.out := by
  rw [State.controlWrite_enable] at h
  rw [State.controlWrite_out, h, speakerAfterWrite_self]

theorem State.recordData_out_of_disabled {b : Bool} (h : s.enable = false) : (s.recordData b).out = s.out := by
  rw [State.recordData_out, h, speakerAfterData_off]

theorem State.machineReset_out_of_disabled (h : s.enable = false) : s.machineReset.out = s.out := by
  rw [State.machineReset_out, h, enableBit_latchReset, speakerAfterWrite_stayOff]

/-- Settles O36, from the frame of the latch. -/
theorem onlyControlWritesAndResetChangeTheLatch : Obligations.OnlyControlWritesAndResetChangeTheLatch :=
  fun _ _ _ h hne => (exec_latch h).resolve_left hne

/-- Settles O37, from the frame of the data bit. -/
theorem onlySpeakerDataChangesTheDataBit : Obligations.OnlySpeakerDataChangesTheDataBit :=
  fun _ _ _ h hne => (exec_data h).resolve_left hne

/-- Settles O38: the three updates that reach the level leave it alone where their gate is shut. -/
theorem onlyGatedEventsChangeTheSpeaker : Obligations.OnlyGatedEventsChangeTheSpeaker := by
  intro i s t h hne
  obtain ⟨_, _, _, rfl⟩ | ⟨_, rfl⟩ | ⟨_, _, rfl⟩ | ⟨_, _, rfl⟩ | ⟨_, _, _, _, rfl⟩ | ⟨v, hi, rfl⟩ | ⟨b, hi, rfl⟩ | ⟨hi, rfl⟩ :=
    exec_cases h
  · exact absurd rfl hne
  · exact absurd rfl hne
  · exact absurd rfl hne
  · exact absurd rfl hne
  · exact absurd rfl hne
  · refine .inl ⟨?_, fun he => hne (State.controlWrite_out_of_enable_eq he)⟩
    obtain rfl | rfl := hi <;> rfl
  · exact .inr (.inl ⟨⟨b, hi⟩, Bool.eq_true_of_not_eq_false fun he => hne (State.recordData_out_of_disabled he)⟩)
  · exact .inr (.inr ⟨hi, Bool.eq_true_of_not_eq_false fun he => hne (State.machineReset_out_of_disabled he)⟩)

/-- A byte of memory is kept by everything but a write of RAM to it. -/
theorem exec_memByte (h : exec i s = .next t) (b : Address) :
    t.memByte b = s.memByte b ∨ ∃ v, i = .memw b v ∧ decodeMemory b = .ram ∧ t.memByte b = v := by
  obtain ⟨_, _, _, rfl⟩ | ⟨_, rfl⟩ | ⟨_, _, rfl⟩ | ⟨_, _, rfl⟩ | ⟨a, v, ha, hi, rfl⟩ | ⟨_, _, rfl⟩ | ⟨_, _, rfl⟩ | ⟨_, rfl⟩ :=
    exec_cases h
  · exact .inl (State.memByte_congr _ _ (by rfl) b)
  · exact .inl (State.memByte_congr _ _ (by rfl) b)
  · exact .inl (State.memByte_congr _ _ (by rfl) b)
  · exact .inl (State.memByte_congr _ _ (by rfl) b)
  · have hb := (State.memByte_congr (s.writeRam (ramOffset a) v) _ (by rfl) b).trans (memByte_writeRam s v ha b)
    by_cases hab : b = a
    · subst hab
      exact .inr ⟨v, hi, ha, hb.trans (if_pos rfl)⟩
    · exact .inl (hb.trans (if_neg hab))
  · exact .inl (State.memByte_congr _ _ (by rfl) b)
  · exact .inl (State.memByte_congr _ _ (by rfl) b)
  · exact .inl (State.memByte_congr _ _ (by rfl) b)

/-- Settles O39, from the frame of a byte of memory. -/
theorem onlyMemoryWritesChangeMemory : Obligations.OnlyMemoryWritesChangeMemory := by
  intro i s t b h hne
  obtain ⟨v, hi, hb, hv⟩ := (exec_memByte h b).resolve_left hne
  exact ⟨v, hi, (decodeMemory_eq_ram_iff b).mp hb, hv⟩

/-! ### The output record -/

theorem exec_keeps_trace (h : exec i s = .next t) : t.pending = s.pending ∧ t.index = s.index := by
  obtain ⟨_, _, _, rfl⟩ | ⟨_, rfl⟩ | ⟨_, _, rfl⟩ | ⟨_, _, rfl⟩ | ⟨_, _, _, _, rfl⟩ | ⟨_, _, rfl⟩ | ⟨_, _, rfl⟩ | ⟨_, rfl⟩ :=
    exec_cases h <;> exact ⟨rfl, rfl⟩

/-- An instruction that is no decode row ends by recording its observation. -/
theorem exec_operation (hi : isOperation i = true) (h : exec i s = .next t) :
    ∃ u r sel c, t = State.observe u r sel c ∧ u.log = s.log := by
  cases i with
  | memr a =>
    cases hd : decodeMemory a with
    | ram => cases (exec_memr_ram hd s).symm.trans h; exact ⟨s, _, _, _, rfl, rfl⟩
    | rom => cases (exec_memr_rom hd s).symm.trans h; exact ⟨s, _, _, _, rfl, rfl⟩
    | unmapped => cases (exec_memr_unmapped hd s).symm.trans h; exact ⟨s, _, _, _, rfl, rfl⟩
  | memw a v =>
    cases hd : decodeMemory a with
    | ram => cases (exec_memw_ram hd v s).symm.trans h; exact ⟨s.writeRam _ v, _, _, _, rfl, rfl⟩
    | rom => cases (exec_memw_rom hd v s).symm.trans h; exact ⟨s, _, _, _, rfl, rfl⟩
    | unmapped => cases (exec_memw_unmapped hd v s).symm.trans h; exact ⟨s, _, _, _, rfl, rfl⟩
  | ior p =>
    cases hd : ioSelect p with
    | ctrl => cases (exec_ior_ctrl hd s).symm.trans h; exact ⟨s, _, _, _, rfl, rfl⟩
    | window d => cases (exec_ior_window hd s).symm.trans h; exact ⟨s.takeAnswer, _, _, _, rfl, rfl⟩
    | unmapped => cases (exec_ior_unmapped hd s).symm.trans h; exact ⟨s, _, _, _, rfl, rfl⟩
  | iow p v =>
    cases hd : ioSelect p with
    | ctrl => cases (exec_iow_ctrl hd v s).symm.trans h; exact ⟨s.writeLatch v, _, _, _, rfl, rfl⟩
    | window d => cases (exec_iow_window hd v s).symm.trans h; exact ⟨s, _, _, _, rfl, rfl⟩
    | unmapped => cases (exec_iow_unmapped hd v s).symm.trans h; exact ⟨s, _, _, _, rfl, rfl⟩
  | dmar c => cases h; exact ⟨s.takeAnswer, _, _, _, rfl, rfl⟩
  | dmaw c v => cases h; exact ⟨s, _, _, _, rfl, rfl⟩
  | spkd b => cases h; exact ⟨s.recordData b, _, _, _, rfl, rfl⟩
  | reset => cases h; exact ⟨s.machineReset, _, _, _, rfl, rfl⟩
  | cpr => cases h; exact ⟨s, _, _, _, rfl, rfl⟩
  | cpw v => cases h; exact ⟨s.writeLatch v, _, _, _, rfl, rfl⟩
  | _ => cases hi

/-- A decode row records the answer of the select logic and does nothing else. -/
theorem exec_decodeRow (hi : isOperation i = false) (h : exec i s = .next t) : ∃ a, t = s.answerLookup a := by
  cases i <;> cases hi
  all_goals
    cases h
    exact ⟨_, rfl⟩

/-- Settles O40: an operation ends by observing, a decode row by answering its look-up. -/
theorem everyOperationRecordsItsLevels : Obligations.EveryOperationRecordsItsLevels := by
  intro i s t h
  obtain ⟨hpending, hindex⟩ := exec_keeps_trace h
  refine ⟨hpending, hindex, fun hi => ?_, fun hi => ?_⟩
  · obtain ⟨u, r, sel, c, rfl, hlog⟩ := exec_operation hi h
    exact ⟨⟨r, sel, c, u.gate, u.enable, u.out⟩, by rw [State.observe_log, hlog], rfl, rfl, rfl⟩
  · obtain ⟨a, rfl⟩ := exec_decodeRow hi h
    exact ⟨a, rfl⟩

end Sys2Proof.Machine
end

