-- ==== Sys2Proof/Proofs/Invariant.lean ====
section
/-! The invariants of 10_state.md R47: what every step keeps, and what holds of every reachable state. The set of
triples that a restore accepts (`Saved.reachable`) is the invariant behind the second. -/

namespace Sys2Proof.Machine

/-! ### What every step keeps -/

/-- (J) makes a reset end silent, and there the closed form says no more. -/
theorem State.Silent.machineReset_closed {s : State} (hs : s.Silent) : s.machineReset.Closed := by
  rw [State.Closed, hs.machineReset_out, State.machineReset_enable, enableBit_latchReset, Bool.false_and]

/-- The invariant speaks of the triple, the ghost and RAM alone. -/
theorem State.Inv.congr {s t : State} (hs : s.Inv) (hl : t.latch = s.latch) (hd : t.data = s.data)
    (ho : t.out = s.out) (hr : t.resetDone = s.resetDone) (hm : t.ram = s.ram) : t.Inv where
  silent := hs.silent.congr hl ho
  closed h := (hs.closed (hr ▸ h)).congr hl hd ho
  ramWf := hm ▸ hs.ramWf

theorem State.Inv.writeRam {s : State} (hs : s.Inv) {a : Address} (ha : decodeMemory a = .ram) (v : Byte) :
    (s.writeRam (ramOffset a) v).Inv where
  silent := hs.silent
  closed := hs.closed
  ramWf := Memory.wf_write s.ram _ v hs.ramWf (ramOffset_lt_ramSize ha)

theorem State.Inv.controlWrite {s : State} (hs : s.Inv) (v : Byte) : (s.controlWrite v).Inv where
  silent := hs.silent.writeLatch v
  closed h := (hs.closed h).controlWrite v
  ramWf := hs.ramWf

theorem State.Inv.recordData {s : State} (hs : s.Inv) (b : Bool) : (s.recordData b).Inv where
  silent := hs.silent.recordData b
  closed h := (hs.closed h).recordData b
  ramWf := hs.ramWf

theorem State.Inv.machineReset {s : State} (hs : s.Inv) : s.machineReset.Inv where
  silent _ := hs.silent.machineReset_out
  closed _ := hs.silent.machineReset_closed
  ramWf := hs.ramWf

theorem exec_inv {i : Instr} {s t : State} (h : exec i s = .next t) (hs : s.Inv) : t.Inv := by
  obtain ⟨_, _, _, rfl⟩ | ⟨_, rfl⟩ | ⟨_, _, rfl⟩ | ⟨_, _, rfl⟩ | ⟨_, v, ha, _, rfl⟩ | ⟨v, _, rfl⟩ | ⟨b, _, rfl⟩ | ⟨_, rfl⟩ :=
    exec_cases h
  · exact hs.congr rfl rfl rfl rfl rfl
  · exact hs.congr rfl rfl rfl rfl rfl
  · exact hs.congr rfl rfl rfl rfl rfl
  · exact hs.congr rfl rfl rfl rfl rfl
  · exact (hs.writeRam ha v).congr rfl rfl rfl rfl rfl
  · exact hs.controlWrite v
  · exact (hs.recordData b).congr rfl rfl rfl rfl rfl
  · exact hs.machineReset.congr rfl rfl rfl rfl rfl

/-- Settles O44: taking the presentation keeps the invariant, and so does running what it decodes to. -/
theorem everyStepKeepsTheInvariant : Obligations.EveryStepKeepsTheInvariant := by
  intro s t hs h
  have ha : s.advance.Inv := hs.congr rfl rfl rfl rfl rfl
  obtain ⟨_, rfl⟩ | ⟨_, _, _, _, _, he⟩ | ⟨_, _, _, _, rfl⟩ := step_cases h
  · exact hs
  · exact exec_inv he ha
  · exact ha.congr rfl rfl rfl rfl rfl

/-! ### The triples of reachable states -/

/-- At power-on the latch enables the speaker, no reset has happened, and RAM has no written byte. -/
theorem State.powerOnWith_inv (trace : List Presented) (answers : List Byte) :
    (State.powerOnWith trace answers).Inv where
  silent := State.powerOnWith_silent trace answers
  closed h := nomatch (h : false = true)
  ramWf := rfl

theorem State.reset_inv : State.reset.Inv where
  silent _ := rfl
  closed _ := rfl
  ramWf := State.reset_ram_wf

/-- Settles O45, by the two base cases. -/
theorem invariantHoldsAtPowerOnAndReset : Obligations.InvariantHoldsAtPowerOnAndReset :=
  ⟨State.powerOnWith_inv, State.reset_inv⟩

theorem Reachable.inv {s : State} (h : Reachable s) : s.Inv := by
  induction h with
  | powerOn trace answers => exact State.powerOnWith_inv trace answers
  | step s t _ hst ih => exact everyStepKeepsTheInvariant s t ih hst

/-- The exception of 10_state.md R47: the open power-on level 1 is still there, and nothing has gated it. -/
def State.PowerOnLevel (s : State) : Prop :=
  Config.spkOutPowerOn = true ∧ s.enable = true ∧ s.data = false ∧ s.out = true

theorem State.save_reachable_iff (s : State) : s.save.reachable = true ↔ s.Closed ∨ s.PowerOnLevel := by
  simp only [Saved.reachable, Saved.closed, Bool.or_eq_true, Bool.and_eq_true, beq_iff_eq, Bool.not_eq_true', and_assoc]
  rfl

/-- While the power-on level stands, an instruction either leaves it standing or closes the form. -/
theorem State.PowerOnLevel.controlWrite {s : State} (hs : s.PowerOnLevel) (v : Byte) :
    (s.controlWrite v).Closed ∨ (s.controlWrite v).PowerOnLevel := by
  obtain ⟨hopen, hen, hdata, hout⟩ := hs
  cases hv : enableBit v with
  | false =>
    refine .inl ?_
    rw [State.Closed, State.controlWrite_out_of_enabled_disabling hen hv, State.controlWrite_enable, hv, Bool.false_and]
  | true => exact .inr ⟨hopen, hv, hdata, (State.controlWrite_out_of_enabled_enabling hen hv).trans hout⟩

theorem State.PowerOnLevel.recordData {s : State} (hs : s.PowerOnLevel) (b : Bool) : (s.recordData b).Closed := by
  obtain ⟨-, hen, -, -⟩ := hs
  rw [State.Closed, State.recordData_out, State.recordData_enable, hen, speakerAfterData_on, Bool.true_and]
  rfl

theorem State.save_reachable_controlWrite {s : State} (hs : s.save.reachable = true) (v : Byte) :
    (s.controlWrite v).save.reachable = true := by
  rw [State.save_reachable_iff] at hs ⊢
  obtain hc | hp := hs
  · exact .inl (hc.controlWrite v)
  · exact hp.controlWrite v

theorem State.save_reachable_recordData {s : State} (hs : s.save.reachable = true) (b : Bool) :
    (s.recordData b).save.reachable = true := by
  rw [State.save_reachable_iff] at hs ⊢
  obtain hc | hp := hs
  · exact .inl (hc.recordData b)
  · exact .inl (hp.recordData b)

theorem exec_save_reachable {i : Instr} {s t : State} (h : exec i s = .next t) (hs : s.save.reachable = true) :
    t.save.reachable = true := by
  obtain ⟨_, _, _, rfl⟩ | ⟨_, rfl⟩ | ⟨_, _, rfl⟩ | ⟨_, _, rfl⟩ | ⟨_, _, _, _, rfl⟩ | ⟨v, _, rfl⟩ | ⟨b, _, rfl⟩ | ⟨_, rfl⟩ :=
    exec_cases h
  · exact hs
  · exact hs
  · exact hs
  · exact hs
  · exact hs
  · exact State.save_reachable_controlWrite hs v
  · exact State.save_reachable_recordData hs b
  · exact State.save_reachable_controlWrite hs Config.latchReset

theorem step_save_reachable {s t : State} (h : step s = .next t) (hs : s.save.reachable = true) :
    t.save.reachable = true := by
  obtain ⟨_, rfl⟩ | ⟨_, _, _, _, _, he⟩ | ⟨_, _, _, _, rfl⟩ := step_cases h
  · exact hs
  · exact exec_save_reachable he hs
  · exact hs

/-- The open level decides on which side power-on falls. -/
theorem State.powerOnWith_save_reachable (trace : List Presented) (answers : List Byte) :
    (State.powerOnWith trace answers).save.reachable = true := by
  rw [State.save_reachable_iff]
  cases ho : Config.spkOutPowerOn with
  | false => exact .inl (ho.trans (Bool.and_false _).symm)
  | true => exact .inr ⟨ho, State.powerOn_enable, rfl, ho⟩

theorem Reachable.save_reachable {s : State} (h : Reachable s) : s.save.reachable = true := by
  induction h with
  | powerOn trace answers => exact State.powerOnWith_save_reachable trace answers
  | step s t _ hst ih => exact step_save_reachable hst ih

/-- Settles O46: (J) and the closed form are the invariant; the exception is the one that `Saved.reachable` names. -/
theorem reachableStatesAreSilentAndClosed : Obligations.ReachableStatesAreSilentAndClosed := fun s h =>
  ⟨h.inv.silent, h.inv.closed, (State.save_reachable_iff s).mp h.save_reachable⟩

end Sys2Proof.Machine
end

