-- ==== Sys2Proof/Proofs/Traces.lean ====
section
/-! Steps, runs and traces (30_encoding.md R104; 20_memory.md R74; 60_exceptions.md R246). -/

namespace Sys2Proof.Machine

/-! ### One step -/

theorem State.advance_eq {s : State} {x : Presented} {rest : List Presented} (h : s.pending = x :: rest) :
    s.advance = { s with pending := rest, index := s.index + 1 } := by
  rw [State.advance, h, List.tail_cons]

/-- Settles O42. -/
theorem stepRunsTheDecodedInstruction : Obligations.StepRunsTheDecodedInstruction := by
  refine ⟨fun s x rest i hp hd => ?_, fun s => step_nil, fun s p rest hp hd => ?_⟩
  · rw [step_cons hp hd, State.advance_eq hp]
  · rw [step_undecoded hp hd, State.advance_eq hp]
    rfl

theorem undecoded_eq_refused_iff (r : Reject) (s : State) (q : Refusal) :
    undecoded r s = .refused q ↔ r ≠ .portSelectsNothing ∧ q = .malformed r := by
  cases r <;> simp [undecoded, eq_comm]

theorem decodeChannel_ne_portSelectsNothing (w : TraceWord) : decodeChannel w ≠ .error .portSelectsNothing := by
  intro h
  obtain ⟨-, he⟩ | ⟨-, -, he⟩ | ⟨_, -, -, he⟩ := decodeChannel_cases w <;> cases he.symm.trans h

/-- No trace word is rejected for its port: an Unmapped port is a legal operand of `IOR` and `IOW`. -/
theorem decodeTrace_ne_portSelectsNothing (w : TraceWord) : decodeTrace w ≠ .error .portSelectsNothing := by
  intro h
  obtain hk | hk | hk | hk | hk | hk | hk | hk | hk := kind_cases (TraceWord.kind w)
  · rw [decodeTrace_memr hk] at h
    split_ifs at h
    cases h
  · cases (decodeTrace_memw hk).symm.trans h
  · rw [decodeTrace_ior hk] at h
    split_ifs at h <;> cases h
  · rw [decodeTrace_iow hk] at h
    split_ifs at h
    cases h
  · rw [decodeTrace_dmar hk] at h
    split_ifs at h
    · cases h
    · exact decodeChannel_ne_portSelectsNothing w (map_eq_error_iff.mp h)
  · exact decodeChannel_ne_portSelectsNothing w (map_eq_error_iff.mp ((decodeTrace_dmaw hk).symm.trans h))
  · rw [decodeTrace_spkd hk] at h
    split_ifs at h <;> cases h
  · rw [decodeTrace_reset hk] at h
    split_ifs at h
    cases h
  · cases (decodeTrace_reserved hk).symm.trans h

/-- What the decoder rejects, and that only a bare port is rejected for selecting nothing. -/
theorem decode_error_cases {x : Presented} {r : Reject} (h : decode x = .error r) :
    (r = .portSelectsNothing ∧ ∃ p, x = .ioPort p) ∨
    (r ≠ .portSelectsNothing ∧ ((∃ w, x = .traceWord w) ∨ x = .dmaChannel 3)) := by
  cases x with
  | traceWord w => exact .inr ⟨fun hr => decodeTrace_ne_portSelectsNothing w (hr ▸ h), .inl ⟨w, rfl⟩⟩
  | memAddress a => cases (decode_memAddress a).symm.trans h
  | ioPort p =>
    rw [decode_ioPort] at h
    cases ht : ioSelect p with
    | ctrl => rw [ht] at h; cases h
    | window d => rw [ht] at h; cases h
    | unmapped => rw [ht] at h; cases h; exact .inl ⟨rfl, p, rfl⟩
  | dmaChannel b =>
    obtain ⟨rfl, -⟩ | ⟨c, rfl, -⟩ := Channel.ofBits_cases b
    · cases decode_dmaChannel_three.symm.trans h
      exact .inr ⟨by decide, .inr rfl⟩
    · cases (decode_dmaChannel_toBits c).symm.trans h

/-- Settles O43: a decoded presentation has a next state, so a refusal comes from the decoder. -/
theorem stepRefusesExactlyMalformedPresentations : Obligations.StepRefusesExactlyMalformedPresentations := by
  intro s q
  constructor
  · intro h
    cases hp : s.pending with
    | nil => cases (step_nil hp).symm.trans h
    | cons x rest =>
      cases hd : decode x with
      | ok i =>
        obtain ⟨t, ht⟩ := exec_total i s.advance
        cases ((step_cons hp hd).trans ht).symm.trans h
      | error r =>
        rw [step_undecoded hp hd, undecoded_eq_refused_iff] at h
        obtain ⟨hr, rfl⟩ := h
        obtain ⟨hr', -⟩ | ⟨-, hx⟩ := decode_error_cases hd
        · exact absurd hr' hr
        · exact ⟨x, rest, r, rfl, hd, rfl, hx⟩
  · rintro ⟨x, rest, r, hp, hd, rfl, hx⟩
    rw [step_undecoded hp hd, undecoded_eq_refused_iff]
    obtain ⟨-, p, rfl⟩ | ⟨hr, -⟩ := decode_error_cases hd
    · simp at hx
    · exact ⟨hr, rfl⟩

/-- What a reset of a silent state leaves: (J) has made the level 0. -/
theorem State.Silent.machineReset_eq {s : State} (hs : s.Silent) :
    s.machineReset = { s with latch := Config.latchReset, out := false, resetDone := true } := by
  rw [← hs.machineReset_out]
  rfl

/-- Settles O51: the first step is the reset, and (J) holds at power-on whatever the open level is. -/
theorem bootPremiseReachesTheResetState : Obligations.BootPremiseReachesTheResetState := by
  rintro _ answers ⟨rest, rfl⟩
  have hs : (State.powerOnWith (encode .reset :: rest) answers).advance.Silent :=
    State.powerOnWith_silent (encode .reset :: rest) answers
  refine ⟨_, ?_, rfl⟩
  rw [step_cons (s := State.powerOnWith _ answers) rfl (decode_encode (i := .reset) rfl), exec_canonical, exec_reset,
    hs.machineReset_eq]
  rfl

/-! ### Runs -/

theorem runOps_cons {i : Instr} {ops : List Instr} {s t : State} (h : exec i s = .next t) :
    runOps (i :: ops) s = runOps ops t := by
  rw [runOps, h]

/-- What every instruction of a list keeps, the list keeps; and no list stops short. -/
theorem runOps_keeps {P : State → Prop} (ops : List Instr) (s : State)
    (hP : ∀ i ∈ ops, ∀ s t, exec i s = .next t → P s → P t) (hs : P s) : ∃ t, runOps ops s = .next t ∧ P t := by
  induction ops generalizing s with
  | nil => exact ⟨s, rfl, hs⟩
  | cons i ops ih =>
    obtain ⟨t, ht⟩ := exec_total i s
    rw [runOps_cons ht]
    exact ih t (fun j hj => hP j (List.mem_cons_of_mem i hj)) (hP i List.mem_cons_self s t ht hs)

/-- Settles O47: the byte at the address survives every instruction that is no write to it. -/
theorem memoryReadReturnsTheLatestWrite : Obligations.MemoryReadReturnsTheLatestWrite := by
  intro a v ops s ha hops
  obtain ⟨s', hw, hv, -⟩ := memwToRamStoresOneByte s a v ha
  have keeps : ∀ i ∈ ops, ∀ s t, exec i s = .next t → s.memByte a = v → t.memByte a = v := by
    intro i hi s t h hs
    obtain hsame | ⟨w, rfl, -⟩ := exec_memByte h a
    · exact hsame.trans hs
    · exact absurd rfl (hops _ hi w)
  obtain ⟨t, hrun, ht⟩ := runOps_keeps ops s' keeps hv
  have hram := decodeMemory_ram ha
  rw [memByte_ram t hram] at ht
  refine ⟨t, _, (runOps_cons hw).trans hrun, exec_memr_ram hram t, ?_⟩
  rw [ht]
  rfl

/-- The latch survives every instruction that neither writes the control port nor resets. -/
theorem runOps_keeps_latch (ops : List Instr) (s : State)
    (hops : ∀ i ∈ ops, writesControlPort i = false ∧ i ≠ .reset) :
    ∃ t, runOps ops s = .next t ∧ t.latch = s.latch := by
  refine runOps_keeps ops s (P := fun t => t.latch = s.latch) (fun i hi s' t h hs => ?_) rfl
  obtain ⟨hw, hr⟩ := hops i hi
  obtain hsame | hw' | rfl := exec_latch h
  · exact hsame.trans hs
  · exact absurd hw' (by rw [hw]; decide)
  · exact absurd rfl hr

theorem cpr_log {t : State} {v : Byte} (h : t.latch = v) :
    t.controlRead.log = recordOf t (some v) (some .ctrlSel) none :: t.log := by
  rw [← h]
  rfl

/-- Settles O48: what the write or the reset left in the latch is still there to be read. -/
theorem controlReadReturnsTheLatestWrite : Obligations.ControlReadReturnsTheLatestWrite := by
  intro v ops s hops
  constructor
  · obtain ⟨t, hrun, ht⟩ := runOps_keeps_latch ops (s.controlWrite v) hops
    exact ⟨t, _, (runOps_cons (exec_cpw v s)).trans hrun, exec_cpr t, cpr_log ht⟩
  · obtain ⟨t, hrun, ht⟩ := runOps_keeps_latch ops (s.machineReset.observe none none none) hops
    exact ⟨t, _, (runOps_cons (exec_reset s)).trans hrun, exec_cpr t, cpr_log ht⟩

/-! ### Traces -/

theorem runOps_pending_index (ops : List Instr) {s u : State} (h : runOps ops s = .next u) (p : List Presented)
    (n : Nat) : runOps ops { s with pending := p, index := n } = .next { u with pending := p, index := n } := by
  induction ops generalizing s with
  | nil => cases h; rfl
  | cons i ops ih =>
    obtain ⟨t, ht⟩ := exec_total i s
    rw [runOps_cons ht] at h
    rw [runOps_cons (exec_pending_index ht p n)]
    exact ih h

/-- A pending instruction is the next one executed, under whichever of its names. -/
theorem step_encode {s : State} {i : Instr} {rest : List Presented} (hp : s.pending = encode i :: rest)
    (hi : i.wf = true) : step s = exec i { s with pending := rest, index := s.index + 1 } := by
  rw [step_cons hp (decode_encode hi), exec_canonical, State.advance_eq hp]

/-- Settles O49: one step takes the first instruction, and the rest of the run does not see what was pending. -/
theorem tracesRunInOrderOneOperationAStep : Obligations.TracesRunInOrderOneOperationAStep := by
  intro ops
  induction ops with
  | nil =>
    intro s u _ hp h
    cases h
    exact congrArg Host.Outcome.next (by rw [← (show s.pending = [] from hp)]; rfl)
  | cons i ops ih =>
    intro s u hwf hp h
    obtain ⟨t, ht⟩ := exec_total i s
    rw [runOps_cons ht] at h
    have hstep : step s = .next { t with pending := ops.map encode, index := s.index + 1 } := by
      rw [step_encode hp (hwf i List.mem_cons_self)]
      exact exec_pending_index ht _ _
    have hrest := ih _ _ (fun j hj => hwf j (List.mem_cons_of_mem i hj)) rfl
      (runOps_pending_index ops h (ops.map encode) (s.index + 1))
    rw [List.length_cons, core_run_succ _ hstep, hrest, Nat.add_right_comm, Nat.add_assoc]

end Sys2Proof.Machine
end

