-- ==== Sys2Proof/Proofs/CompositionRoot.lean ====
section
/-! The composition root (43_composition_root.md R221 to R228): the configuration check clause by clause, power-on, and
which triples are saved and restored. -/

namespace Sys2Proof.Machine

/-! ### The configuration check -/

theorem fits_iff (base size last : Nat) : fits base size last = true ↔ 1 ≤ size ∧ base + size - 1 ≤ last := by
  simp [fits]

/-- The order of two regions (43_composition_root.md R222). -/
def RegionBefore (r s : MemoryRegion) : Prop := r.base + r.size ≤ s.base

/-- Neighbours in order are enough: the order of regions is transitive. -/
theorem regionsOrdered_iff (l : List MemoryRegion) : regionsOrdered l = true ↔ l.Pairwise RegionBefore := by
  have : Trans RegionBefore RegionBefore RegionBefore :=
    ⟨fun {_ y _} h h' => h.trans ((Nat.le_add_right y.base y.size).trans h')⟩
  rw [← List.isChain_iff_pairwise]
  induction l with
  | nil => simp [regionsOrdered]
  | cons r l ih =>
    cases l with
    | nil => simp [regionsOrdered]
    | cons s l => simp [regionsOrdered, ih, RegionBefore]

/-- For windows that are not empty, lying apart is having no port in common. -/
theorem windowsApart_iff {v w : IoWindow} (hv : 1 ≤ v.size) (hw : 1 ≤ w.size) : windowsApart v w = true ↔
    ∀ n, ¬ ((v.base ≤ n ∧ n < v.base + v.size) ∧ (w.base ≤ n ∧ n < w.base + w.size)) := by
  simp only [windowsApart, Bool.or_eq_true, decide_eq_true_iff]
  constructor
  · intro h n hn
    omega
  · intro h
    have hmax := h (max v.base w.base)
    omega

theorem windowsDisjoint_iff (l : List IoWindow) :
    windowsDisjoint l = true ↔ l.Pairwise fun v w => windowsApart v w = true := by
  induction l with
  | nil => simp [windowsDisjoint]
  | cons w l ih => simp [windowsDisjoint, ih]

theorem inWindow_iff (n : Nat) (w : IoWindow) : inWindow n w = true ↔ w.base ≤ n ∧ n < w.base + w.size := by
  simp [inWindow]

theorem boundOnce_iff (l : List DmaBinding) (c : Channel) :
    boundOnce l c = true ↔ ∃ b, l.filter (fun x => x.index = c) = [b] := by
  rw [boundOnce, beq_iff_eq, List.length_eq_one_iff]
  rfl

/-- The check passes when every clause does. -/
theorem checkParams_eq_none_iff (p : Params) : checkParams p = none ↔
    p.regions.all (fun r => fits r.base r.size Config.memLast) = true ∧ regionsOrdered p.regions = true ∧
    p.windows.all (fun w => fits w.base w.size Config.portLast) = true ∧ windowsDisjoint p.windows = true ∧
    p.windows.any (inWindow p.ctrlPort.toNat) = false ∧ Channel.all.all (boundOnce p.bindings) = true := by
  unfold checkParams
  split_ifs <;> simp_all

theorem construct_eq_powerOn_iff (p : Params) : construct p = .next State.powerOn ↔ checkParams p = none := by
  unfold construct
  cases checkParams p <;> simp

/-- Settles O53: clause by clause; that windows are apart is said of windows that are not empty, as the clause before
it has them. -/
theorem constructionChecksTheConfiguration : Obligations.ConstructionChecksTheConfiguration := by
  intro p
  constructor
  · rw [construct_eq_powerOn_iff, checkParams_eq_none_iff, regionsOrdered_iff, windowsDisjoint_iff]
    simp only [List.all_eq_true, List.any_eq_false, fits_iff, inWindow_iff, boundOnce_iff, Config.memLast,
      Config.portLast]
    refine and_congr Iff.rfl (and_congr Iff.rfl (and_congr_right fun hw => and_congr ?_ (and_congr Iff.rfl ?_)))
    · exact List.Pairwise.iff_of_mem fun hv hw' => windowsApart_iff (hw _ hv).1 (hw _ hw').1
    · exact ⟨fun h c => h c c.mem_all, fun h c _ => h c⟩
  · unfold construct
    cases checkParams p with
    | none => exact .inl rfl
    | some e => exact .inr ⟨e, rfl⟩

/-- Settles O52: the check of the fixed records by evaluation. -/
theorem thisConfigurationIsAccepted : Obligations.ThisConfigurationIsAccepted :=
  (construct_eq_powerOn_iff Config.glue).mpr (by decide)

/-- Settles O50: no byte of RAM is written yet, so each reads as its free power-on content. -/
theorem powerOnState : Obligations.PowerOnState := by
  refine ⟨rfl, rfl, rfl, State.powerOn_gate, State.powerOn_enable, fun a ha => ?_⟩
  rw [memByte_ram _ (decodeMemory_ram ha)]
  rfl

/-! ### Save and restore -/

theorem restore_of_reachable {k : Saved} (h : k.reachable = true) (u : State) : restore k u = .next { u with
    latch := k.latch, data := k.data, out := k.out, resetDone := u.resetDone && k.closed } :=
  if_pos h

theorem restore_eq_refused_iff (k : Saved) (u : State) :
    restore k u = .refused .restoreUnreachable ↔ ¬ k.reachable = true := by
  unfold restore
  split_ifs with h <;> simp [h]

/-- Settles O54: the triple of a reachable state is one that a restore accepts. -/
theorem savedReachableTriplesAreRestored : Obligations.SavedReachableTriplesAreRestored := fun _ u h =>
  ⟨_, restore_of_reachable h.save_reachable u, ⟨rfl, rfl, rfl⟩, rfl, rfl, State.memByte_congr u _ rfl, rfl,
    ⟨rfl, rfl, rfl, rfl⟩, rfl⟩

theorem run_succ_refused (M : Host.Core) {s : M.State} {r : M.Refusal} (n : Nat) (h : M.step s = .refused r) :
    M.run (n + 1) s = .refused r := by
  rw [Host.Core.run, h]

/-- A run of the machine leads from reachable states to reachable states. -/
theorem reachable_of_run (n : Nat) {s t : State} (hs : Reachable s) (h : Host.Core.run core n s = .next t) :
    Reachable t := by
  induction n generalizing s with
  | zero => cases h; exact hs
  | succ n ih =>
    cases hstep : step s with
    | next s' => exact ih (.step s s' hs hstep) ((core_run_succ n hstep).symm.trans h)
    | fault f => cases f
    | refused r =>
      cases (run_succ_refused core n hstep).symm.trans h

/-- The triple that a list of instructions reaches from power-on is that of a reachable state. -/
theorem reachable_of_runOps {ops : List Instr} (hwf : ∀ i ∈ ops, i.wf = true) {u : State}
    (h : runOps ops State.powerOn = .next u) : ∃ s, Reachable s ∧ s.save = u.save := by
  have hrun := tracesRunInOrderOneOperationAStep ops (State.powerOnWith (ops.map encode) []) _ hwf rfl
    (runOps_pending_index ops h (ops.map encode) 0)
  exact ⟨_, reachable_of_run ops.length (.powerOn _ _) hrun, rfl⟩

/-- A closed triple is reached by a reset, then its latch, then its data bit. -/
theorem reachable_of_closed {k : Saved} (h : k.closed = true) : ∃ s, Reachable s ∧ s.save = k := by
  obtain ⟨l, d, o⟩ := k
  have hreset : (State.powerOn.machineReset.observe none none none).Closed :=
    (State.powerOnWith_silent [] []).machineReset_closed
  have hout := (hreset.controlWrite l).recordData_out d
  obtain ⟨s, hs, hsave⟩ := reachable_of_runOps (ops := [.reset, .cpw l, .spkd d]) (by simp [Instr.wf]) rfl
  exact ⟨s, hs, hsave.trans (congrArg (Saved.mk l d) (hout.trans (beq_iff_eq.mp h).symm))⟩

/-- The exceptional triples are reached from power-on by writing the latch alone. -/
theorem reachable_of_powerOnLevel {k : Saved} (ho : Config.spkOutPowerOn = true) (he : enableBit k.latch = true)
    (hd : k.data = false) (hk : k.out = true) : ∃ s, Reachable s ∧ s.save = k := by
  obtain ⟨l, d, o⟩ := k
  cases hd
  have hout : (State.powerOn.controlWrite l).out = o :=
    (State.controlWrite_out_of_enabled_enabling State.powerOn_enable he).trans (ho.trans hk.symm)
  obtain ⟨s, hs, hsave⟩ := reachable_of_runOps (ops := [.cpw l]) (by simp [Instr.wf]) rfl
  exact ⟨s, hs, hsave.trans (congrArg (Saved.mk l false) hout)⟩

theorem exists_reachable_iff (k : Saved) : (∃ s, Reachable s ∧ s.save = k) ↔ k.reachable = true := by
  constructor
  · rintro ⟨s, hs, rfl⟩
    exact hs.save_reachable
  · intro h
    simp only [Saved.reachable, Bool.or_eq_true, Bool.and_eq_true, Bool.not_eq_true', and_assoc] at h
    obtain hc | ⟨ho, he, hd, hk⟩ := h
    · exact reachable_of_closed hc
    · exact reachable_of_powerOnLevel ho he hd hk

/-- Settles O55: the triples a restore accepts are exactly those of reachable states, and those are silent. -/
theorem unreachableTriplesAreRefused : Obligations.UnreachableTriplesAreRefused := by
  constructor
  · intro k u
    rw [restore_eq_refused_iff, exists_reachable_iff]
  · intro k u hen hout
    rw [restore_eq_refused_iff, ← exists_reachable_iff]
    rintro ⟨s, hs, rfl⟩
    exact absurd (hout.symm.trans (hs.silent hen)) (by decide)

end Sys2Proof.Machine
end
